-- ==== Sys2Proof/Word.lean ====
section
/-!
DEFINITION. The word types of the AES-128 CTR engine (spec/00_scope.md R6, R7, R9, R10).
-/

namespace Sys2Proof

/-- A byte, 8 bits (R9). -/
abbrev Byte := BitVec 8

/-- A value of `AW = 32` bits: an address, a length, a callback word, a token (R7). -/
abbrev Word := BitVec 32

/-- A command descriptor, 256 bits (R60). -/
abbrev Desc := BitVec 256

/-- A 4-byte word of the key schedule, kept as a byte string (R10). -/
abbrev Quad := Vector Byte 4

/-- A 16-byte block: key, counter block, cipher state, keystream block (R6). -/
abbrev Block := Vector Byte 16

/-- The 11 round keys of 16 bytes each (R6, R22). -/
abbrev RoundKeys := Vector Block 11

/-- The number of byte addresses, `2^AW` (R40). -/
def memSize : Nat := 4294967296

end Sys2Proof
end

