-- ==== Sys2Proof/Machine/BlockCipher.lean ====
section
/-!
DEFINITION. The block cipher core (spec/41_block_cipher.md R100 to R106). Byte `S[j]` of the cipher state is the element in
row `j mod 4`, column `j div 4` (R101).
-/

namespace Sys2Proof.Machine

/-- `AddRoundKey` (R102). -/
def addRoundKey (s k : Block) : Block := Vector.ofFn fun j => s[j] ^^^ k[j]

/-- `SubBytes` (R103). -/
def subBytes (s : Block) : Block := Vector.ofFn fun j => sbox s[j]

/-- `ShiftRows`: row `r` is rotated left by `r` columns (R104). -/
def shiftRows (s : Block) : Block :=
  Vector.ofFn fun j => s[j.val % 4 + 4 * ((j.val / 4 + j.val % 4) % 4)]

/-- `MixColumns` (R105): row `r` of a column is 2 times row `r`, 3 times row `r + 1`, and rows `r + 2` and `r + 3`,
rows counted modulo 4. -/
def mixColumns (s : Block) : Block :=
  Vector.ofFn fun j =>
    gmul s[4 * (j.val / 4) + j.val % 4] 2 ^^^ gmul s[4 * (j.val / 4) + (j.val + 1) % 4] 3
      ^^^ s[4 * (j.val / 4) + (j.val + 2) % 4] ^^^ s[4 * (j.val / 4) + (j.val + 3) % 4]

/-- One of rounds 1 to 9 (R106). -/
def cipherRound (s k : Block) : Block := addRoundKey (mixColumns (shiftRows (subBytes s))) k

/-- The last round omits `MixColumns` (R106). -/
def finalRound (s k : Block) : Block := addRoundKey (shiftRows (subBytes s)) k

/-- `EncryptBlock` (R100). -/
def encryptBlock (rk : RoundKeys) (x : Block) : Block :=
  let s := addRoundKey x rk[0]
  let s := cipherRound s rk[1]
  let s := cipherRound s rk[2]
  let s := cipherRound s rk[3]
  let s := cipherRound s rk[4]
  let s := cipherRound s rk[5]
  let s := cipherRound s rk[6]
  let s := cipherRound s rk[7]
  let s := cipherRound s rk[8]
  let s := cipherRound s rk[9]
  finalRound s rk[10]

end Sys2Proof.Machine
end

