-- ==== Sys2Proof/Syntax.lean ====
section
/-!
DEFINITION. The commands (spec/30_encoding.md R62) and the fields of a command descriptor (R61).
-/

namespace Sys2Proof

/-- The operation kind of a transform (R62, R146). -/
inductive Kind where
  | encrypt
  | decrypt
deriving DecidableEq, Repr

/-- The five commands of R62 with the fields each one uses. Every field is an unsigned 32-bit value used as it stands
(R67), so every term of this type is a legal command. -/
inductive Instr where
  /-- `SET_KEY`: key address `A0`, key length `L0` (R80). -/
  | setKey (a0 l0 : Word)
  /-- `ENCRYPT_CTR_SYNC`: buffer `A0, L0`, counter `A1, L1` (R142). -/
  | encryptCtrSync (a0 l0 a1 l1 : Word)
  /-- `DECRYPT_CTR_SYNC` (R143). -/
  | decryptCtrSync (a0 l0 a1 l1 : Word)
  /-- `ENCRYPT_CTR_ASYNC`: buffer, counter, callback word `CB`, token `TOK` (R144). -/
  | encryptCtrAsync (a0 l0 a1 l1 cb tok : Word)
  /-- `DECRYPT_CTR_ASYNC` (R145). -/
  | decryptCtrAsync (a0 l0 a1 l1 cb tok : Word)
deriving DecidableEq, Repr

/-- The fields of a command descriptor (R61), in the order of their bits, lowest first. -/
structure Cmd where
  opc  : BitVec 8
  rsv0 : BitVec 24
  a0   : Word
  l0   : Word
  a1   : Word
  l1   : Word
  cb   : Word
  tok  : Word
  rsv1 : Word
deriving DecidableEq, Repr

end Sys2Proof
end

