-- ==== Sys2Proof/WellFormed.lean ====
section
/-!
DEFINITION. When a descriptor is legal (spec/30_encoding.md R68, R69, R73). A term of `Instr` is always a legal command
(R67); what can be ill formed is the descriptor, and there are three checks.
-/

namespace Sys2Proof

/-- R73 (1): both reserved fields are 0. -/
def Cmd.reservedZero (c : Cmd) : Bool := c.rsv0 == 0 && c.rsv1 == 0

/-- R73 (2): the opcode is one of the five of R62. -/
def Cmd.opcodeAssigned (c : Cmd) : Bool :=
  c.opc == 0x01 || c.opc == 0x10 || c.opc == 0x11 || c.opc == 0x12 || c.opc == 0x13

/-- R73 (3): the fields marked "must be 0" for the opcode in R61 are 0. -/
def Cmd.unusedZero (c : Cmd) : Bool :=
  if c.opc = 0x01 then c.a1 == 0 && c.l1 == 0 && c.cb == 0 && c.tok == 0
  else if c.opc = 0x10 ∨ c.opc = 0x11 then c.cb == 0 && c.tok == 0
  else true

/-- A legal descriptor passes all three checks (R73). -/
def Cmd.legal (c : Cmd) : Bool := c.reservedZero && c.opcodeAssigned && c.unusedZero

end Sys2Proof
end

