-- ==== Sys2Proof/Decode.lean ====
section
/-!
DEFINITION. Decoding a 256-bit descriptor, total and rejecting by name (spec/30_encoding.md R61, R62, R73), the encoder,
the mask and match table (R63), and the host's view of the decoder.
-/

namespace Sys2Proof

/-- Why a descriptor is illegal, one name per step of R73; all three have the same effect (R68, R69). -/
inductive DecodeError where
  /-- R73 (1): `RSV0` or `RSV1` is not 0. -/
  | reservedField
  /-- R73 (2): the opcode is not one of the five. -/
  | reservedOpcode
  /-- R73 (3): a must-be-0 field of the opcode is not 0. -/
  | unusedField
deriving DecidableEq, Repr

/-- The fields of a descriptor (R61). -/
def Cmd.ofDesc (w : Desc) : Cmd where
  opc  := w.extractLsb' 0 8
  rsv0 := w.extractLsb' 8 24
  a0   := w.extractLsb' 32 32
  l0   := w.extractLsb' 64 32
  a1   := w.extractLsb' 96 32
  l1   := w.extractLsb' 128 32
  cb   := w.extractLsb' 160 32
  tok  := w.extractLsb' 192 32
  rsv1 := w.extractLsb' 224 32

/-- The descriptor with the given fields (R61). -/
def Cmd.toDesc (c : Cmd) : Desc :=
  c.rsv1 ++ c.tok ++ c.cb ++ c.l1 ++ c.a1 ++ c.l0 ++ c.a0 ++ c.rsv0 ++ c.opc

/-- The command that the fields of a descriptor stand for, or why it is illegal (R62, R73). -/
def decodeCmd (c : Cmd) : Except DecodeError Instr :=
  if c.rsv0 ≠ 0 ∨ c.rsv1 ≠ 0 then .error .reservedField
  else if c.opc = 0x01 then
    if c.a1 = 0 ∧ c.l1 = 0 ∧ c.cb = 0 ∧ c.tok = 0 then .ok (.setKey c.a0 c.l0)
    else .error .unusedField
  else if c.opc = 0x10 then
    if c.cb = 0 ∧ c.tok = 0 then .ok (.encryptCtrSync c.a0 c.l0 c.a1 c.l1)
    else .error .unusedField
  else if c.opc = 0x11 then
    if c.cb = 0 ∧ c.tok = 0 then .ok (.decryptCtrSync c.a0 c.l0 c.a1 c.l1)
    else .error .unusedField
  else if c.opc = 0x12 then .ok (.encryptCtrAsync c.a0 c.l0 c.a1 c.l1 c.cb c.tok)
  else if c.opc = 0x13 then .ok (.decryptCtrAsync c.a0 c.l0 c.a1 c.l1 c.cb c.tok)
  else .error .reservedOpcode

/-- Decoding a descriptor (R73). -/
def decode (w : Desc) : Except DecodeError Instr := decodeCmd (Cmd.ofDesc w)

/-- The descriptor fields of a command: its opcode, its used fields, 0 everywhere else (R61, R62). -/
def encodeCmd : Instr → Cmd
  | .setKey a0 l0 =>
    { opc := 0x01, rsv0 := 0, a0 := a0, l0 := l0, a1 := 0, l1 := 0, cb := 0, tok := 0, rsv1 := 0 }
  | .encryptCtrSync a0 l0 a1 l1 =>
    { opc := 0x10, rsv0 := 0, a0 := a0, l0 := l0, a1 := a1, l1 := l1, cb := 0, tok := 0, rsv1 := 0 }
  | .decryptCtrSync a0 l0 a1 l1 =>
    { opc := 0x11, rsv0 := 0, a0 := a0, l0 := l0, a1 := a1, l1 := l1, cb := 0, tok := 0, rsv1 := 0 }
  | .encryptCtrAsync a0 l0 a1 l1 cb tok =>
    { opc := 0x12, rsv0 := 0, a0 := a0, l0 := l0, a1 := a1, l1 := l1, cb := cb, tok := tok, rsv1 := 0 }
  | .decryptCtrAsync a0 l0 a1 l1 cb tok =>
    { opc := 0x13, rsv0 := 0, a0 := a0, l0 := l0, a1 := a1, l1 := l1, cb := cb, tok := tok, rsv1 := 0 }

/-- Encoding a command (R61, R62). -/
def encode (i : Instr) : Desc := (encodeCmd i).toDesc

/-- A row of the mask and match table (R63). -/
structure MaskRow where
  opc     : BitVec 8
  mask    : Desc
  pattern : Desc
deriving DecidableEq, Repr

/-- R63, one row per command in the table's order. -/
def maskRows : List MaskRow :=
  [ { opc := 0x01, mask := 0xffffffffffffffffffffffffffffffffffffffff0000000000000000ffffffff, pattern := 0x01 },
    { opc := 0x10, mask := 0xffffffffffffffffffffffff00000000000000000000000000000000ffffffff, pattern := 0x10 },
    { opc := 0x11, mask := 0xffffffffffffffffffffffff00000000000000000000000000000000ffffffff, pattern := 0x11 },
    { opc := 0x12, mask := 0xffffffff000000000000000000000000000000000000000000000000ffffffff, pattern := 0x12 },
    { opc := 0x13, mask := 0xffffffff000000000000000000000000000000000000000000000000ffffffff, pattern := 0x13 } ]

/-- A descriptor matches a row (R63). -/
def MaskRow.selects (r : MaskRow) (w : Desc) : Bool := w &&& r.mask == r.pattern

/-- The instruction the decoder reads from a word numbered as spec/opcode_table.json numbers its bits: a descriptor is
one 256-bit value on the command port, so bit `k` of the word is bit `k` of the descriptor (R60); bits from `nbits` on
are 0, and a word with a bit above 255 is no descriptor. -/
def decodeTableWord (nbits w : Nat) : Option Instr :=
  let v := w % 2 ^ nbits
  if v < 2 ^ 256 then
    match decode (BitVec.ofNat 256 v) with
    | .ok i => some i
    | .error _ => none
  else none

end Sys2Proof
end

