-- ==== Sys2Proof/Config.lean ====
section
/-!
DEFINITION. What the platform fixes (the parameters of spec/00_scope.md R7, as plain data) and the free values of the
spec (its "draws": spec/70_reset_and_hazards.md R200).
-/

namespace Sys2Proof

/-- A range of addresses, first address and number of bytes. -/
structure Region where
  base : Nat
  size : Nat
deriving DecidableEq, Repr

/-- The open parameters of R7. State holds one of these and no step writes it, so a statement for every state holds
for every `QDEPTH` and every `MAPPED`. -/
structure Platform where
  /-- `QDEPTH`: how many asynchronous operations may be outstanding; `none` is the spec's `inf`. -/
  qdepth : Option Nat
  /-- The addresses below `2^AW` for which `MAPPED` is false. -/
  holes : List Region
deriving DecidableEq, Repr

/-- The defaults of R7: `QDEPTH = 4`, every address mapped. -/
def Platform.default : Platform := { qdepth := some 4, holes := [] }

/-- `QDEPTH` is a natural number at least 1 or `inf` (R7). -/
abbrev Platform.wf (p : Platform) : Prop := p.qdepth ≠ some 0

namespace Config

/-- FREE VALUE (R35): the content of `RK` after a reset event, at a draw number. -/
opaque freeRk : Nat → RoundKeys

/-- FREE VALUE (R26, R35): the content of `CTRW` between operations and after a reset event. -/
opaque freeCtrw : Nat → BitVec 128

/-- FREE VALUE (R27, R35): the content of `IDX` between operations and after a reset event, at most `2^28` (R27). -/
opaque freeIdx : Nat → Fin 268435457

/-- FREE VALUE (R28, R35): the content of `KSB` between operations (log entry 12) and after a reset event. -/
opaque freeKsb : Nat → Block

/-- FREE VALUE (R54 (b)): the byte a host load from an owned address returns. -/
opaque freeLoadByte : Nat → Byte

end Config

end Sys2Proof
end

