-- ==== Sys2Proof/Machine/State.lean ====
section
/-!
DEFINITION. The state of the block and its surroundings as plain data (spec/10_state.md R20 to R36), the reasons a step can
stop, and the state after reset (R35, R190).
-/

namespace Sys2Proof.Machine

/-- `ENG`, the engine's phase (R24). -/
inductive Phase where
  | idle
  | run
deriving DecidableEq, Repr

/-- `PORT`, the command handshake (R25). -/
inductive Port where
  | free
  | held (cmd : Desc)
deriving DecidableEq, Repr

/-- The operands of a transform operation (R129, R142). -/
structure Op where
  kind : Kind
  buf  : Word
  len  : Word
  ctr  : Word
deriving DecidableEq, Repr

/-- A Pending Operation record (R146). -/
structure Pending extends Op where
  cb  : Word
  tok : Word
deriving DecidableEq, Repr

/-- A notification record (R30, R66). -/
structure Ntf where
  cb   : Word
  kind : Kind
  tok  : Word
deriving DecidableEq, Repr

/-- The status names of R65. -/
inductive Status where
  | ok
  | submitted
  | invalidKeyLength
  | keyNotSet
  | invalidCounterLength
  | submissionRejected
  | illegalCommand
deriving DecidableEq, Repr

/-- A response (R64). -/
structure Rsp where
  status : Status
  token  : Word
deriving DecidableEq, Repr

/-- What the host may do (R200, R201). -/
inductive HostAct where
  /-- Present a descriptor on the command port. -/
  | command (w : Desc)
  /-- Load `n` bytes from address `a`. -/
  | load (a : Word) (n : Nat)
  /-- Store bytes at address `a`. -/
  | store (a : Word) (bytes : List Byte)
deriving DecidableEq, Repr

/-- Which agent moves (R8). -/
inductive Turn where
  | host
  | engine
  | reset
deriving DecidableEq, Repr

/-- What a host load returned. -/
structure HostRead where
  addr  : Word
  bytes : List Byte
deriving DecidableEq, Repr

/-- The shared memory `M` (R36, R40), as rising address and byte pairs; what an unlisted address reads as is
`Memory.unlisted`. -/
abbrev Memory := List Host.Cell

/-- The machine's state: the elements of R20, the shared memory (R36), the parameters of R7, and the model's own
inputs and traces (INVENTORY.md, State). -/
structure State where
  /-- `KEY_VALID` (R21). -/
  keyValid : Bool
  /-- `RK[0..10]` (R22). -/
  rk       : RoundKeys
  /-- `FATAL` (R23). -/
  fatal    : Bool
  /-- `ENG` (R24). -/
  eng      : Phase
  /-- `PORT` (R25). -/
  port     : Port
  /-- `CTRW` (R26). -/
  ctrw     : BitVec 128
  /-- `IDX` (R27). -/
  idx      : Nat
  /-- `KSB` (R28). -/
  ksb      : Block
  /-- `Q`, oldest first (R29). -/
  q        : List Pending
  /-- `NLOG`, oldest first (R30). -/
  nlog     : List Ntf
  /-- `M` (R36). -/
  mem      : Memory
  /-- The parameters `QDEPTH` and `MAPPED` (R7); no step writes them. -/
  plat     : Platform
  /-- The model's own: the responses driven so far, oldest first (R198). -/
  rsps     : List Rsp
  /-- The model's own: what host loads returned so far, oldest first. -/
  reads    : List HostRead
  /-- The model's own input: what the host still wants to do, in its order. -/
  prog     : List HostAct
  /-- The model's own input: which agents move next, first first (R32, R199). -/
  turns    : List Turn
  /-- The model's own: how many free values have been drawn. -/
  draws    : Nat
deriving DecidableEq, Repr

/-- Why a run stops. -/
inductive Fault where
  /-- Raised by a host store to an address owned by an outstanding operation (R54 (a)). Safe: the spec says the contents
  become undefined and a model treats it as a fault that no later step clears. -/
  | ownershipViolation
  /-- Raised by a host load or store that runs past the top of the address space (R40: there is no address from
  `2^AW` on). Safe: the model stops. -/
  | outsideMemory
deriving DecidableEq, Repr

/-- Why a command has no meaning here. -/
inductive Refusal where
  /-- Raised by `exec` for a command that has no meaning yet; no command is left so. Safe: the model stops. -/
  | notModelled (mnemonic : String)
deriving DecidableEq, Repr

/-- What a byte of memory that nothing has written reads as. DESIGN CHOICE, unsafe (log entry 1): the spec gives memory no
reset contents (R35). -/
def Memory.unlisted : Byte := 0x00

/-- A block of zeros. -/
def zeroBlock : Block := Vector.replicate 16 0

/-- The machine right after reset (R35, R190). `RK`, `CTRW`, `IDX` and `KSB`, which R35 leaves unspecified, hold zero here:
DESIGN CHOICE, unsafe (log entry 5). -/
def State.reset : State where
  keyValid := false
  rk       := Vector.replicate 11 zeroBlock
  fatal    := false
  eng      := .idle
  port     := .free
  ctrw     := 0
  idx      := 0
  ksb      := zeroBlock
  q        := []
  nlog     := []
  mem      := []
  plat     := Platform.default
  rsps     := []
  reads    := []
  prog     := []
  turns    := []
  draws    := 0

end Sys2Proof.Machine
end

