-- ==== Sys2Proof/Machine/Ops.lean ====
section
/-!
DEFINITION. The named operations over memory and state: byte access and the canonical form of memory, the access
primitives of spec/20_memory.md R42, byte strings (spec/00_scope.md R10), the ports (R11, R140), and raising the fatal
fault (spec/60_exceptions.md R175).
-/

namespace Sys2Proof.Machine

/-! ### Memory, one byte at a time -/

/-- The byte at an address (R40). -/
def Memory.read : Memory → Nat → Byte
  | [], _ => Memory.unlisted
  | (a, b) :: m, x => if a = x then b else Memory.read m x

/-- Storing one byte (R40); keeps the addresses rising and lists no byte equal to `Memory.unlisted`. -/
def Memory.write : Memory → Nat → Byte → Memory
  | [], x, v => if v = Memory.unlisted then [] else [(x, v)]
  | (a, b) :: m, x, v =>
    if x < a then (if v = Memory.unlisted then (a, b) :: m else (x, v) :: (a, b) :: m)
    else if x = a then (if v = Memory.unlisted then m else (x, v) :: m)
    else (a, b) :: Memory.write m x v

/-- The canonical form: addresses strictly rising, no entry equal to what an unlisted address reads as. -/
abbrev Memory.wf (m : Memory) : Prop :=
  m.Pairwise (fun c d => c.1 < d.1) ∧ ∀ c ∈ m, c.2 ≠ Memory.unlisted

/-- Every listed address is one of the `2^AW` addresses (R40). -/
abbrev Memory.inSpace (m : Memory) : Prop := ∀ c ∈ m, c.1 < memSize

/-- The bytes at `a`, `a + 1`, ..., `a + n - 1` (R42). -/
def Memory.readBytes (m : Memory) (a n : Nat) : List Byte :=
  (List.range n).map fun k => Memory.read m (a + k)

/-- Storing a byte string at ascending addresses from `a` (R42). -/
def Memory.writeBytes : Memory → Nat → List Byte → Memory
  | m, _, [] => m
  | m, a, b :: bs => Memory.writeBytes (Memory.write m a b) (a + 1) bs

/-! ### Byte strings -/

/-- `be128`: a byte string as an integer, byte 0 most significant (R10). -/
def be128 (bs : List Byte) : BitVec 128 :=
  BitVec.ofNat 128 (bs.foldl (fun n b => n * 256 + b.toNat) 0)

/-- `bytes128`: the 16 bytes of a 128-bit integer, most significant first (R10). -/
def bytes128 (n : BitVec 128) : Block := Vector.ofFn fun j => n.extractLsb' (8 * (15 - j.val)) 8

/-- The first 16 bytes of a byte string as a block. -/
def blockOfBytes (bs : List Byte) : Block := Vector.ofFn fun j => bs.getD j.val 0

/-- Bytewise xor, as long as the shorter of the two (R120: a keystream block is truncated to the chunk). -/
def xorBytes (bs ks : List Byte) : List Byte := List.zipWith (fun b k => b ^^^ k) bs ks

/-! ### The platform -/

/-- `MAPPED` (R7, R41); there is no address from `2^AW` on (R40). -/
def Platform.mapped (p : Platform) (x : Nat) : Bool :=
  decide (x < memSize) && !(p.holes.any fun r => decide (r.base ≤ x ∧ x < r.base + r.size))

/-- Every byte of `a .. a + n - 1` is mapped (R42). -/
def Platform.allMapped (p : Platform) (a n : Nat) : Bool :=
  (List.range n).all fun k => Platform.mapped p (a + k)

/-- `len(Q) = QDEPTH`, or more: there is no room for another operation (R141 check 5, R148); never with `inf`. -/
def Platform.full (p : Platform) (outstanding : Nat) : Bool :=
  match p.qdepth with
  | none => false
  | some d => decide (d ≤ outstanding)

/-! ### Updates of the state -/

/-- `raise FatalFault` (R11, R23, R175): `FATAL` becomes 1 and nothing else of the state changes; the rest of the step is
dropped by whoever raised it. -/
def State.raiseFatal (s : State) : State := { s with fatal := true }

/-- A descriptor is presented: `PORT` becomes `HELD` (R25, R140). -/
def State.present (s : State) (cmd : Desc) : State := { s with port := .held cmd }

/-- `respond` (R11, R140): one response is driven and `PORT` becomes `FREE`. -/
def State.respond (s : State) (st : Status) (tk : Word) : State :=
  { s with port := .free, rsps := s.rsps ++ [{ status := st, token := tk }] }

/-- `notify` (R11, R151): one record is appended to `NLOG`. -/
def State.notify (s : State) (n : Ntf) : State := { s with nlog := s.nlog ++ [n] }

/-- `RK` and `KEY_VALID` are written, all 11 round keys at once (R22, R80). -/
def State.installKey (s : State) (rk : RoundKeys) : State := { s with rk := rk, keyValid := true }

/-- A record is appended to `Q` (R29, R144). -/
def State.enqueue (s : State) (p : Pending) : State := { s with q := s.q ++ [p] }

/-- The head of `Q` is removed and `ENG` becomes `IDLE` (R151). -/
def State.retire (s : State) : State := { s with q := s.q.tail, eng := .idle }

/-- `ENG` becomes `RUN` (R149). -/
def State.setRun (s : State) : State := { s with eng := .run }

/-- `M` is replaced. -/
def State.setMem (s : State) (m : Memory) : State := { s with mem := m }

/-- `CTRW` is written (R26). -/
def State.setCtrw (s : State) (c : BitVec 128) : State := { s with ctrw := c }

/-- `IDX` is written (R27). -/
def State.setIdx (s : State) (i : Nat) : State := { s with idx := i }

/-- `KSB` is written (R28). -/
def State.setKsb (s : State) (k : Block) : State := { s with ksb := k }

/-- An operation is over: from here until the next one loads them, `CTRW` and `IDX` hold unspecified values (R26, R27;
spec/93_implementation_defined.md U7), and so does `KSB` (R28; log entry 12). One free value is drawn for each. -/
def State.releaseScratch (s : State) : State :=
  { s with
    ctrw := Config.freeCtrw s.draws, idx := (Config.freeIdx s.draws).val, ksb := Config.freeKsb s.draws,
    draws := s.draws + 1 }

/-- A host load has returned bytes, `n` free values drawn for it. -/
def State.logRead (s : State) (r : HostRead) (n : Nat) : State :=
  { s with reads := s.reads ++ [r], draws := s.draws + n }

/-- The host's remaining actions. -/
def State.setProg (s : State) (as : List HostAct) : State := { s with prog := as }

/-- The remaining turns. -/
def State.setTurns (s : State) (ts : List Turn) : State := { s with turns := ts }

/-! ### The access primitives

An action that may raise `FatalFault` answers `.ok` with what it gives, or `.error` with the state in which the fault has
been raised; what follows it is then dropped (R11, R175). -/

/-- `MemRead(a, n)` (R42). -/
def memRead (a n : Nat) (s : State) : Except State (List Byte) :=
  if Platform.allMapped s.plat a n then .ok (Memory.readBytes s.mem a n) else .error s.raiseFatal

/-- `MemWrite(a, n, B)` (R42). -/
def memWrite (a n : Nat) (bs : List Byte) (s : State) : Except State State :=
  if Platform.allMapped s.plat a n then .ok (s.setMem (Memory.writeBytes s.mem a (bs.take n)))
  else .error s.raiseFatal

/-- The state a step ends in: after its last action, or as the fatal fault left it (R175). -/
def settle (r : Except State State) : Host.Outcome State Fault Refusal :=
  match r with
  | .ok s => .next s
  | .error s => .next s

/-- A rejection (R172): the response carries the status and token 0, `PORT` is `FREE`, and nothing else changes. -/
def reject (st : Status) (s : State) : Host.Outcome State Fault Refusal := .next (s.respond st 0)

/-! ### Ownership -/

/-- `OWN` (R31): the addresses owned by the records of `Q`. -/
def owned (q : List Pending) (x : Nat) : Bool :=
  q.any fun p =>
    decide (p.buf.toNat ≤ x ∧ x < p.buf.toNat + p.len.toNat) ||
      decide (0 < p.len.toNat ∧ p.ctr.toNat ≤ x ∧ x < p.ctr.toNat + 16)

/-! ### Reset -/

/-- The reset event (R190, R191): the values of R35, with a free value for each element that R35 leaves unspecified; `M`,
the parameters and the model's inputs are not changed. The traces of responses and host loads start again with `NLOG`
(log entry 7). -/
def State.applyReset (s : State) : State :=
  { s.releaseScratch with
    keyValid := false, fatal := false, eng := .idle, port := .free, q := [], nlog := [], rsps := [], reads := [],
    rk := Config.freeRk s.draws }

end Sys2Proof.Machine
end

