-- ==== Sys2Proof/Machine/CtrEngine.lean ====
section
/-!
DEFINITION. The counter-mode engine: the transform as a function (spec/42_ctr_engine.md R120 to R126) and its steps on
memory (R129 to R132).
-/

namespace Sys2Proof.Machine

/-- The number of chunks of a buffer of `n` bytes, `ceil(n/16)` (R121). -/
def chunks (n : Nat) : Nat := (n + 15) / 16

/-- `Inc128` (R123). -/
def inc128 (c : BitVec 128) : BitVec 128 := c + 1

/-- The keystream block of a counter value (R122). -/
def keystream (rk : RoundKeys) (c : BitVec 128) : Block := encryptBlock rk (bytes128 c)

/-- The transformed bytes of `k` chunks, the first under counter `c` (R120). -/
def ctrBytes (rk : RoundKeys) : Nat → BitVec 128 → List Byte → List Byte
  | 0, _, _ => []
  | k + 1, c, bs =>
    xorBytes (bs.take 16) (keystream rk c).toList ++ ctrBytes rk k (inc128 c) (bs.drop 16)

/-- `CtrProcess` (R120): the transformed bytes and the advanced counter. -/
def ctrProcess (rk : RoundKeys) (bs : List Byte) (c : BitVec 128) : List Byte × BitVec 128 :=
  (ctrBytes rk (chunks bs.length) c bs, c + BitVec.ofNat 128 (chunks bs.length))

/-- `OpStart` (R129). -/
def opStart (p : Op) (s : State) : Except State State :=
  if 0 < p.len.toNat then do
    let bs ← memRead p.ctr.toNat 16 s
    return (s.setCtrw (be128 bs)).setIdx 0
  else .ok (s.setIdx 0)

/-- `OpChunk` (R130): all bytes of the chunk are read before any is written. -/
def opChunk (p : Op) (s : State) : Except State State := do
  let i := s.idx
  let a := p.buf.toNat + 16 * i
  let m := min 16 (p.len.toNat - 16 * i)
  let ks := keystream s.rk s.ctrw
  let s := s.setKsb ks
  let bs ← memRead a m s
  let s ← memWrite a m (xorBytes bs ks.toList) s
  return (s.setCtrw (inc128 s.ctrw)).setIdx (i + 1)

/-- `OpFinish` (R131). -/
def opFinish (p : Op) (s : State) : Except State State :=
  if 0 < p.len.toNat then memWrite p.ctr.toNat 16 (bytes128 s.ctrw).toList s else .ok s

/-- `OpChunk`, `k` times (R132). -/
def opChunks (p : Op) : Nat → State → Except State State
  | 0, s => .ok s
  | k + 1, s => do
    let s ← opChunk p s
    opChunks p k s

/-- `CtrRun` (R132). -/
def ctrRun (p : Op) (s : State) : Except State State := do
  let s ← opStart p s
  let s ← opChunks p (chunks p.len.toNat) s
  opFinish p s

end Sys2Proof.Machine
end

