-- ==== Sys2Proof/Machine/Flags.lean ====
section
/-!
DEFINITION. The block has no flags (spec/10_state.md R34). What it reports are status codes and port words
(spec/30_encoding.md R64 to R67).
-/

namespace Sys2Proof.Machine

/-- The operation kind as the bit `OPC[0]` of its command (R62). -/
def kindBit : Kind → BitVec 1
  | .encrypt => 0
  | .decrypt => 1

/-- The signed status codes (R65). -/
def Status.code : Status → Int
  | .ok => 0
  | .submitted => 1
  | .invalidKeyLength => -1
  | .keyNotSet => -2
  | .invalidCounterLength => -3
  | .submissionRejected => -4
  | .illegalCommand => -5

/-- The status field, 32-bit two's complement (R65, R67). -/
def Status.word (st : Status) : Word := BitVec.ofInt 32 st.code

/-- The 64-bit response (R64). -/
def Rsp.word (r : Rsp) : BitVec 64 := r.token ++ r.status.word

/-- The 128-bit notification; its reserved field is 0 (R66). -/
def Ntf.word (n : Ntf) : BitVec 128 :=
  (0 : BitVec 32) ++ n.tok ++ (kindBit n.kind).setWidth 32 ++ n.cb

/-- The notification of a Pending Operation (R66, R151). -/
def Pending.ntf (p : Pending) : Ntf := { cb := p.cb, kind := p.kind, tok := p.tok }

end Sys2Proof.Machine
end

