-- ==== Sys2Proof/Machine/Engine.lean ====
section
/-!
DEFINITION. The engine agent's steps: start, chunk, finish (spec/43_dispatcher.md R149 to R151).
-/

namespace Sys2Proof.Machine

/-- Engine step *start* for the head `p` of `Q` (R149). -/
def engineStart (p : Pending) (s : State) : Except State State := do
  let s ← opStart p.toOp s
  return s.setRun

/-- Engine step *chunk* (R150). -/
def engineChunk (p : Pending) (s : State) : Except State State := opChunk p.toOp s

/-- Engine step *finish* (R151): the notification comes after the last write of the operation, and with it the scratch
registers are between operations (R26, R27). -/
def engineFinish (p : Pending) (s : State) : Except State State := do
  let s ← opFinish p.toOp s
  return (s.notify p.ntf).retire.releaseScratch

/-- An engine step may be enabled: `FATAL` is 0 and `Q` is not empty (R154). -/
def engineEnabled (s : State) : Bool := !s.fatal && !s.q.isEmpty

/-- The engine's turn: the one of R149, R150, R151 that is enabled. Where none is, nothing happens. -/
def engineStep (s : State) : Host.Outcome State Fault Refusal :=
  match s.fatal, s.q with
  | false, p :: _ =>
    match s.eng with
    | .idle => settle (engineStart p s)
    | .run =>
      if s.idx < chunks p.len.toNat then settle (engineChunk p s)
      else if s.idx = chunks p.len.toNat then settle (engineFinish p s)
      else .next s
  | _, _ => .next s

end Sys2Proof.Machine
end

