-- ==== Sys2Proof/Machine/KeySchedule.lean ====
section
/-!
DEFINITION. The key expansion (spec/40_key_schedule.md R81 to R84, R88).
-/

namespace Sys2Proof.Machine

/-- `SubWord` (R82). -/
def subWord (t : Quad) : Quad := #v[sbox t[0], sbox t[1], sbox t[2], sbox t[3]]

/-- `RotWord` (R83). -/
def rotWord (t : Quad) : Quad := #v[t[1], t[2], t[3], t[0]]

/-- The round constants `Rcon[1..10]` (R84). -/
def rconTable : List Byte := [0x01, 0x02, 0x04, 0x08, 0x10, 0x20, 0x40, 0x80, 0x1b, 0x36]

/-- `Rcon[j]` (R84). -/
def rcon (j : Nat) : Byte := rconTable.getD (j - 1) 0

/-- Bytewise xor of two key words (R81). -/
def xorQuad (a b : Quad) : Quad := #v[a[0] ^^^ b[0], a[1] ^^^ b[1], a[2] ^^^ b[2], a[3] ^^^ b[3]]

/-- A key word of zeros, what reading past the end of a word list gives. -/
def zeroQuad : Quad := #v[0, 0, 0, 0]

/-- The temporary `t` of R81 for word `i`, from word `i - 1`. -/
def schedTemp (i : Nat) (prev : Quad) : Quad :=
  if i % 4 = 0 then xorQuad (subWord (rotWord prev)) #v[rcon (i / 4), 0, 0, 0] else prev

/-- `k` more words of the expansion; `ws` holds the words so far, newest first, so the next index is its length (R81). -/
def expandWords : Nat → List Quad → List Quad
  | 0, ws => ws
  | k + 1, ws =>
    expandWords k (xorQuad (ws.getD 3 zeroQuad) (schedTemp ws.length (ws.getD 0 zeroQuad)) :: ws)

/-- The words `w[0]` to `w[43]` (R81). -/
def keyWords (key : Block) : List Quad :=
  (expandWords 40
    [ #v[key[12], key[13], key[14], key[15]], #v[key[8], key[9], key[10], key[11]],
      #v[key[4], key[5], key[6], key[7]], #v[key[0], key[1], key[2], key[3]] ]).reverse

/-- `KeyExpansion`: round key `r` is words `4r` to `4r + 3` in order (R81, R88). -/
def keyExpansion (key : Block) : RoundKeys :=
  let ws := keyWords key
  Vector.ofFn fun r => Vector.ofFn fun j => (ws.getD (4 * r.val + j.val / 4) zeroQuad)[j.val % 4]

end Sys2Proof.Machine
end

