-- ==== Sys2Proof/Machine/Operands.lean ====
section
/-!
DEFINITION. The operands of the commands: regions (spec/20_memory.md R43) and the validation of a transform command
(spec/43_dispatcher.md R141).
-/

namespace Sys2Proof.Machine

/-- A region is well formed iff it ends at or below `2^AW` (R43). -/
def regionOk (a : Word) (n : Nat) : Bool := decide (a.toNat + n ≤ memSize)

/-- The buffer and counter regions of an operation are well formed (R43). -/
def Op.regionsOk (p : Op) : Bool := regionOk p.buf p.len.toNat && regionOk p.ctr 16

/-- Checks 2 to 4 of R141, which all four transforms make, the first failing check deciding; `none` when they pass.
Check 1, a legal descriptor, is `decode`'s. -/
def validate (p : Op) (l1 : Word) (s : State) : Option Status :=
  if s.keyValid = false then some .keyNotSet
  else if l1 ≠ 16 then some .invalidCounterLength
  else if Op.regionsOk p = false then some .illegalCommand
  else none

/-- Checks 2 to 5 of R141, for the asynchronous commands. -/
def validateAsync (p : Op) (l1 : Word) (s : State) : Option Status :=
  match validate p l1 s with
  | some st => some st
  | none => if Platform.full s.plat s.q.length then some .submissionRejected else none

end Sys2Proof.Machine
end

