-- ==== Sys2Proof/Machine/SetKey.lean ====
section
/-!
DEFINITION. The meaning of `SET_KEY` (spec/40_key_schedule.md R80, R91).
-/

namespace Sys2Proof.Machine

/-- Reading, expanding and installing the key, once nothing is outstanding (R80). -/
def installFrom (a0 : Word) (s : State) : Except State State := do
  let bs ← memRead a0.toNat 16 s
  return (s.installKey (keyExpansion (blockOfBytes bs))).respond .ok 0

/-- `SET_KEY` (R80): the length check, the region check, the hold of R91, then the installation. A held command leaves
`PORT` at `HELD` and is taken up again at a later host turn. -/
def execSetKey (a0 l0 : Word) (s : State) : Host.Outcome State Fault Refusal :=
  let s := s.present (encode (.setKey a0 l0))
  if l0 ≠ 16 then reject .invalidKeyLength s
  else if regionOk a0 16 = false then reject .illegalCommand s
  else if s.q ≠ [] then .next s
  else settle (installFrom a0 s)

end Sys2Proof.Machine
end

