-- ==== Sys2Proof/Machine/Transform.lean ====
section
/-!
DEFINITION. The meanings of the four transform commands (spec/43_dispatcher.md R141 to R145, R155).
-/

namespace Sys2Proof.Machine

/-- How a synchronous transform ends, after its `CtrRun` or where the fatal fault left it (R142, R175). `ENG` is `IDLE`, so
either way the scratch registers hold unspecified values from here on (R26, R27). -/
def endSync (r : Except State State) : Host.Outcome State Fault Refusal :=
  match r with
  | .ok s => .next (s.releaseScratch.respond .ok 0)
  | .error s => .next s.releaseScratch

/-- A synchronous transform whose descriptor `cmd` decoded to operation `p` with counter length `l1` (R142, R155). -/
def runSync (cmd : Desc) (p : Op) (l1 : Word) (s : State) : Host.Outcome State Fault Refusal :=
  let s := s.present cmd
  match validate p l1 s with
  | some st => reject st s
  | none =>
    if s.q ≠ [] then .next s
    else endSync (ctrRun p s)

/-- An asynchronous submission (R144): never held; accepted, it appends one record and answers with its token. -/
def runAsync (cmd : Desc) (p : Pending) (l1 : Word) (s : State) : Host.Outcome State Fault Refusal :=
  let s := s.present cmd
  match validateAsync p.toOp l1 s with
  | some st => reject st s
  | none => .next ((s.enqueue p).respond .submitted p.tok)

/-- `ENCRYPT_CTR_SYNC` (R142). -/
def execEncryptCtrSync (a0 l0 a1 l1 : Word) (s : State) : Host.Outcome State Fault Refusal :=
  runSync (encode (.encryptCtrSync a0 l0 a1 l1)) { kind := .encrypt, buf := a0, len := l0, ctr := a1 } l1 s

/-- `DECRYPT_CTR_SYNC` (R143). -/
def execDecryptCtrSync (a0 l0 a1 l1 : Word) (s : State) : Host.Outcome State Fault Refusal :=
  runSync (encode (.decryptCtrSync a0 l0 a1 l1)) { kind := .decrypt, buf := a0, len := l0, ctr := a1 } l1 s

/-- `ENCRYPT_CTR_ASYNC` (R144). -/
def execEncryptCtrAsync (a0 l0 a1 l1 cb tok : Word) (s : State) : Host.Outcome State Fault Refusal :=
  runAsync (encode (.encryptCtrAsync a0 l0 a1 l1 cb tok))
    { kind := .encrypt, buf := a0, len := l0, ctr := a1, cb := cb, tok := tok } l1 s

/-- `DECRYPT_CTR_ASYNC` (R145). -/
def execDecryptCtrAsync (a0 l0 a1 l1 cb tok : Word) (s : State) : Host.Outcome State Fault Refusal :=
  runAsync (encode (.decryptCtrAsync a0 l0 a1 l1 cb tok))
    { kind := .decrypt, buf := a0, len := l0, ctr := a1, cb := cb, tok := tok } l1 s

end Sys2Proof.Machine
end

