-- ==== Sys2Proof/Machine/Dispatch.lean ====
section
/-!
DEFINITION. One arm per command (spec/30_encoding.md R62), each a direct call of its meaning.
-/

namespace Sys2Proof.Machine

def exec (i : Instr) (s : State) : Host.Outcome State Fault Refusal :=
  match i with
  | .setKey a0 l0 => Sys2Proof.Machine.execSetKey a0 l0 s
  | .encryptCtrSync a0 l0 a1 l1 => Sys2Proof.Machine.execEncryptCtrSync a0 l0 a1 l1 s
  | .decryptCtrSync a0 l0 a1 l1 => Sys2Proof.Machine.execDecryptCtrSync a0 l0 a1 l1 s
  | .encryptCtrAsync a0 l0 a1 l1 cb tok => Sys2Proof.Machine.execEncryptCtrAsync a0 l0 a1 l1 cb tok s
  | .decryptCtrAsync a0 l0 a1 l1 cb tok => Sys2Proof.Machine.execDecryptCtrAsync a0 l0 a1 l1 cb tok s

end Sys2Proof.Machine
end

