-- ==== Sys2Proof/Machine/HostAgent.lean ====
section
/-!
DEFINITION. The host agent's steps: commands, the completion of a held command, loads and stores
(spec/43_dispatcher.md R140, R155; spec/70_reset_and_hazards.md R200; spec/20_memory.md R54).
-/

namespace Sys2Proof.Machine

/-- A descriptor on the command port: a legal one runs its command, any other is answered `IllegalCommand` with no
effect (R68, R69, R73). -/
def runCommand (w : Desc) (s : State) : Host.Outcome State Fault Refusal :=
  match decode w with
  | .ok i => exec i s
  | .error _ => reject .illegalCommand (s.present w)

/-- The byte the host sees at an address: a free value where an outstanding operation owns it (R54 (b)). -/
def hostByte (s : State) (x k : Nat) : Byte :=
  if owned s.q x then Config.freeLoadByte (s.draws + k) else Memory.read s.mem x

/-- A host load of `n` bytes (R54 (b), R200). -/
def hostLoad (a : Word) (n : Nat) (s : State) : Host.Outcome State Fault Refusal :=
  if regionOk a n = false then .fault .outsideMemory
  else .next (s.logRead { addr := a, bytes := (List.range n).map fun k => hostByte s (a.toNat + k) k } n)

/-- A host store (R54 (a), R200). -/
def hostStore (a : Word) (bs : List Byte) (s : State) : Host.Outcome State Fault Refusal :=
  if regionOk a bs.length = false then .fault .outsideMemory
  else if (List.range bs.length).any fun k => owned s.q (a.toNat + k) then .fault .ownershipViolation
  else .next (s.setMem (Memory.writeBytes s.mem a.toNat bs))

/-- The host's turn. A held command is taken up again (R155); with `PORT` free the next action of the host is taken, a
command only while `FATAL` is 0 (R140, R200). Where the host has no enabled step, nothing happens. -/
def hostStep (s : State) : Host.Outcome State Fault Refusal :=
  match s.port with
  | .held w => if s.fatal then .next s else runCommand w s
  | .free =>
    match s.prog with
    | [] => .next s
    | .command w :: rest => if s.fatal then .next s else runCommand w (s.setProg rest)
    | .load a n :: rest => hostLoad a n (s.setProg rest)
    | .store a bs :: rest => hostStore a bs (s.setProg rest)

end Sys2Proof.Machine
end

