-- ==== Sys2Proof/Machine/Agents.lean ====
section
/-!
DEFINITION. Which agent moves, and its move (spec/20_memory.md R51; spec/70_reset_and_hazards.md R199, R200).
-/

namespace Sys2Proof.Machine

/-- The agent that moves next: the head of `turns`; when `turns` is used up, the engine if it has a step, else the host
(log entry 4). -/
def State.turn (s : State) : Turn :=
  match s.turns with
  | t :: _ => t
  | [] => if engineEnabled s then .engine else .host

/-- The move of an agent. -/
def agentStep (t : Turn) (s : State) : Host.Outcome State Fault Refusal :=
  match t with
  | .host => hostStep s
  | .engine => engineStep s
  | .reset => .next s.applyReset

/-- One atomic step of the interleaving (R50, R51). -/
def interleave (s : State) : Host.Outcome State Fault Refusal :=
  agentStep s.turn (s.setTurns s.turns.tail)

/-- The state in which the host's next move is to present a descriptor, and the host moves next. -/
def State.withCommand (s : State) (w : Desc) : State :=
  { s with port := .free, fatal := false, prog := .command w :: s.prog, turns := .host :: s.turns }

end Sys2Proof.Machine
end

