-- ==== Sys2Proof/Machine/Step.lean ====
section
/-!
DEFINITION. One step of the machine, and placing a command where the next step takes it.
-/

namespace Sys2Proof.Machine

/-- One step (R200): one atomic step of one agent. -/
def step (s : State) : Host.Outcome State Fault Refusal := Sys2Proof.Machine.interleave s

/-- The state in which the next step presents the descriptor with the given bits, bits from `nbits` on 0: the host's next
action is that command, the host moves next, and the port accepts it (`PORT` free, `FATAL` 0). -/
def State.withFetchWord (s : State) (nbits w : Nat) : State :=
  Sys2Proof.Machine.State.withCommand s (BitVec.ofNat 256 (w % 2 ^ nbits))

end Sys2Proof.Machine
end

