-- ==== Sys2Proof/Safety.lean ====
section
/-!
DEFINITION. The terms in which claims are stated: the end of a run (spec/70_reset_and_hazards.md R198), the invariants of
spec/10_state.md, and what one acceptance leaves in the traces.
-/

namespace Sys2Proof.Machine

/-- A run is over (R198). -/
abbrev State.Over (s : State) : Prop :=
  s.prog = [] ∧ s.port = .free ∧ s.q = [] ∧ s.fatal = false

/-- The block is quiescent (R29). -/
abbrev State.Quiescent (s : State) : Prop := s.q = [] ∧ s.eng = .idle

/-- A descriptor that may stay on the port across steps: a `SET_KEY` that passed the checks of R80, or a synchronous
transform that passed R141 checks 1 to 4 (R25). -/
def heldValid (w : Desc) (s : State) : Bool :=
  match decode w with
  | .ok (.setKey a0 l0) => l0 == 16 && regionOk a0 16
  | .ok (.encryptCtrSync a0 l0 a1 l1) =>
    (validate { kind := .encrypt, buf := a0, len := l0, ctr := a1 } l1 s).isNone
  | .ok (.decryptCtrSync a0 l0 a1 l1) =>
    (validate { kind := .decrypt, buf := a0, len := l0, ctr := a1 } l1 s).isNone
  | _ => false

/-- The memory keeps its canonical form within the address space (R40). -/
structure State.MemInv (s : State) : Prop where
  canonical : Memory.wf s.mem
  inSpace   : Memory.inSpace s.mem

/-- The queue and engine invariants of R24, R27, R29, R43, R107. -/
structure State.QueueInv (s : State) : Prop where
  /-- `ENG = RUN` implies `Q` is not empty (R24). -/
  runHead    : s.eng = .run → s.q ≠ []
  /-- `len(Q) <= QDEPTH` (R29). -/
  bounded    : ∀ d, s.plat.qdepth = some d → s.q.length ≤ d
  /-- Every accepted operation names well-formed regions (R43, R141 check 4). -/
  regions    : ∀ p ∈ s.q, Op.regionsOk p.toOp = true
  /-- No operation is outstanding without a key (R107). -/
  keyed      : s.q ≠ [] → s.keyValid = true
  /-- The running operation has done at most all of its chunks (R27). -/
  progress   : s.eng = .run → ∀ p, s.q.head? = some p → s.idx ≤ chunks p.len.toNat
  /-- `IDX` is at most `2^28` (R27). -/
  idxBounded : s.idx ≤ 268435456

/-- Only a valid `SET_KEY` or a valid synchronous transform stays on the port between steps (R25). -/
def State.PortInv (s : State) : Prop := ∀ w, s.port = .held w → heldValid w s = true

/-- While `KEY_VALID` is 1, `RK` is the expansion of some key (R89). -/
def State.KeyInv (s : State) : Prop := s.keyValid = true → ∃ key : Block, s.rk = keyExpansion key

/-- The tokens of the `SUBMITTED` responses, in their order. -/
def acceptedTokens (rsps : List Rsp) : List Word :=
  (rsps.filter fun r => r.status == .submitted).map Rsp.token

/-- The accepted operations are, in the order of acceptance, those already notified and then those still in `Q`
(R148, R152). -/
def State.TraceInv (s : State) : Prop :=
  acceptedTokens s.rsps = s.nlog.map Ntf.tok ++ s.q.map Pending.tok

end Sys2Proof.Machine
end

