-- ==== Sys2Proof/Certificates/Slice0/Obligations.lean ====
section
/-!
DEFINITION. The statements for the provers. Each docstring names the rules of spec/ a statement rests on.
-/

open Sys2Proof Sys2Proof.Machine

namespace Sys2Proof.Claims

/-- The outcome of a rejection (R172): one response with the status and token 0, `PORT` free, nothing else. -/
def rejected (s : State) (st : Status) : Host.Outcome State Fault Refusal :=
  .next { s with port := .free, rsps := s.rsps ++ [{ status := st, token := 0 }] }

/-- An address the operation reads or writes (R49): in its buffer, or, if it has any data, in its counter region. -/
def touches (p : Op) (x : Nat) : Prop :=
  (p.buf.toNat ≤ x ∧ x < p.buf.toNat + p.len.toNat) ∨
    (0 < p.len.toNat ∧ p.ctr.toNat ≤ x ∧ x < p.ctr.toNat + 16)

/-- What `CtrProcess` gives on the operation's buffer and counter, both as memory holds them in `s` (R132). -/
def processed (s : State) (p : Op) : List Byte × BitVec 128 :=
  ctrProcess s.rk (Memory.readBytes s.mem p.buf.toNat p.len.toNat) (be128 (Memory.readBytes s.mem p.ctr.toNat 16))

/-- The byte at `x` after the whole operation (R132, R134): the counter region holds the advanced counter, the rest of the
buffer the transformed bytes, every other address what it held. -/
def transformedByte (s : State) (p : Op) (x : Nat) : Byte :=
  if 0 < p.len.toNat ∧ p.ctr.toNat ≤ x ∧ x < p.ctr.toNat + 16 then
    (bytes128 (processed s p).2).toList.getD (x - p.ctr.toNat) 0
  else if p.buf.toNat ≤ x ∧ x < p.buf.toNat + p.len.toNat then (processed s p).1.getD (x - p.buf.toNat) 0
  else Memory.read s.mem x

/-- The byte at `x` when the first `n` bytes of the buffer have been transformed and the counter region has not been
written (R130, R175, R191). -/
def partlyTransformedByte (s : State) (p : Op) (n x : Nat) : Byte :=
  if p.buf.toNat ≤ x ∧ x < p.buf.toNat + min n p.len.toNat then (processed s p).1.getD (x - p.buf.toNat) 0
  else Memory.read s.mem x

/-- Adding 1 to a byte string, lowest byte first: stop at the first byte whose result is not 0 (R123). -/
def incLow : List Byte → List Byte
  | [] => []
  | b :: bs => if b + 1 ≠ 0 then (b + 1) :: bs else 0 :: incLow bs

/-- The two synchronous transforms with given operands. -/
def syncCommands (a0 l0 a1 l1 : Word) : List Instr := [.encryptCtrSync a0 l0 a1 l1, .decryptCtrSync a0 l0 a1 l1]

/-- The two asynchronous transforms with given operands. -/
def asyncCommands (a0 l0 a1 l1 cb tok : Word) : List Instr :=
  [.encryptCtrAsync a0 l0 a1 l1 cb tok, .decryptCtrAsync a0 l0 a1 l1 cb tok]

/-- The operation of a transform command, its kind apart (R125: the kind changes nothing in the transform). -/
def opOf (a0 l0 a1 : Word) : Op := { kind := .encrypt, buf := a0, len := l0, ctr := a1 }

/-- `p` is the operation that the step of `s` may transform data of: the head of `Q` on the engine's turn, the operation of
the synchronous transform held or presented on the host's (its kind apart). -/
def mayTransform (s : State) (p : Op) : Prop :=
  (s.turn = .engine ∧ ∃ r, s.q.head? = some r ∧ r.toOp = p) ∨
    (s.turn = .host ∧ ∃ w, (s.port = .held w ∨ s.prog.head? = some (.command w)) ∧
      ∃ i ∈ syncCommands p.buf p.len p.ctr 16, decode w = .ok i)

end Sys2Proof.Claims

open Sys2Proof.Claims

/-! ### Encoding -/

/-- R69, R67: decoding the descriptor of any command gives the command back, and a descriptor that decodes is the
descriptor of the command it decodes to. -/
def Obligations.DecodeEncodeInverse : Prop :=
  (∀ i : Instr, decode (encode i) = .ok i) ∧ ∀ (w : Desc) (i : Instr), decode w = .ok i → encode i = w

/-- R63: a descriptor decodes to the command of a row exactly when it matches the row, and no descriptor matches two
rows. -/
def Obligations.MaskMatchSelectsCommand : Prop :=
  (∀ w : Desc, ∀ r ∈ maskRows,
    (r.selects w = true ↔ ∃ i, decode w = .ok i ∧ (encodeCmd i).opc = r.opc)) ∧
  ∀ w : Desc, maskRows.Pairwise fun r r' => ¬ (r.selects w = true ∧ r'.selects w = true)

/-- R73: decoding is total and follows the four steps, and the three kinds of illegal descriptor have one outcome. -/
def Obligations.DecodeFollowsSteps : Prop :=
  ∀ w : Desc,
    (¬ ((Cmd.ofDesc w).rsv0 = 0 ∧ (Cmd.ofDesc w).rsv1 = 0) → decode w = .error .reservedField) ∧
    ((Cmd.ofDesc w).reservedZero = true → (Cmd.ofDesc w).opc ∉ [0x01, 0x10, 0x11, 0x12, 0x13] →
      decode w = .error .reservedOpcode) ∧
    ((Cmd.ofDesc w).reservedZero = true → (Cmd.ofDesc w).opc ∈ [0x01, 0x10, 0x11, 0x12, 0x13] →
      (Cmd.ofDesc w).unusedZero = false → decode w = .error .unusedField) ∧
    ((Cmd.ofDesc w).legal = true → ∃ i, decode w = .ok i ∧ encodeCmd i = Cmd.ofDesc w) ∧
    ∀ e s, decode w = .error e → runCommand w s = rejected s .illegalCommand

/-- R61, R62 on the five words of 95_test_vectors.md V12: a sanity statement. -/
def Obligations.CommandWordsDecode : Prop :=
  decode 0x0000000000000000000000000000000000000000000000100000100000000001 = .ok (.setKey 0x1000 16) ∧
  decode 0x0000000000000000000000000000001000001010000000400000200000000010 =
    .ok (.encryptCtrSync 0x2000 64 0x1010 16) ∧
  decode 0x0000000000000000000000000000001000001010000000400000200000000011 =
    .ok (.decryptCtrSync 0x2000 64 0x1010 16) ∧
  decode 0x000000000000a5a5000080000000001000001010000000400000200000000012 =
    .ok (.encryptCtrAsync 0x2000 64 0x1010 16 0x8000 0xa5a5) ∧
  decode 0x0000000000005a5a000080000000001000001010000000400000200000000013 =
    .ok (.decryptCtrAsync 0x2000 64 0x1010 16 0x8000 0x5a5a)

/-- R65, R64, R66: the status codes and the words on the response and notification ports. -/
def Obligations.PortWords : Prop :=
  (Status.word .ok = 0x00000000 ∧ Status.word .submitted = 0x00000001 ∧ Status.word .invalidKeyLength = 0xffffffff ∧
    Status.word .keyNotSet = 0xfffffffe ∧ Status.word .invalidCounterLength = 0xfffffffd ∧
    Status.word .submissionRejected = 0xfffffffc ∧ Status.word .illegalCommand = 0xfffffffb) ∧
  (∀ st : Status, (Status.word st).toInt = Status.code st) ∧
  (∀ r : Rsp, (Rsp.word r).extractLsb' 0 32 = Status.word r.status ∧ (Rsp.word r).extractLsb' 32 32 = r.token) ∧
  ∀ n : Ntf, (Ntf.word n).extractLsb' 0 32 = n.cb ∧
    (Ntf.word n).extractLsb' 32 32 = (match n.kind with | .encrypt => 0 | .decrypt => 1) ∧
    (Ntf.word n).extractLsb' 64 32 = n.tok ∧ (Ntf.word n).extractLsb' 96 32 = 0

/-! ### A step runs the presented command -/

/-- R140, R200: with `FATAL` 0, the host's turn and the port free, the step takes the host's command and is `exec` of it on
the rest of the state; a held command is taken up again; with no turns given and nothing in `Q` the host moves (log
entry 4). -/
def Obligations.StepRunsPresentedCommand : Prop :=
  ∀ (s : State) (w : Desc) (i : Instr), s.fatal = false → decode w = .ok i →
    (∀ rest ts, s.port = .free → s.turns = .host :: ts → s.prog = .command w :: rest →
      step s = exec i { s with turns := ts, prog := rest }) ∧
    (∀ ts, s.port = .held w → s.turns = .host :: ts → step s = exec i { s with turns := ts }) ∧
    (∀ rest, s.port = .free → s.turns = [] → s.q = [] → s.prog = .command w :: rest →
      step s = exec i { s with prog := rest })

/-- R50, R51, R200: a step is one move of the agent whose turn it is; with no turns given the engine moves while `FATAL` is 0
and `Q` is not empty, and the host otherwise (log entry 4). -/
def Obligations.StepMovesOneAgent : Prop :=
  ∀ (s : State) (ts : List Turn),
    (s.turns = .host :: ts → step s = hostStep { s with turns := ts }) ∧
    (s.turns = .engine :: ts → step s = engineStep { s with turns := ts }) ∧
    (s.turns = .reset :: ts → step s = .next { s with turns := ts }.applyReset) ∧
    (s.turns = [] → step s = if s.fatal = false ∧ s.q ≠ [] then engineStep s else hostStep s)

/-- R68, and R69's same treatment: an illegal descriptor is answered `IllegalCommand` with token 0 and nothing else
changes. -/
def Obligations.IllegalDescriptorHasNoEffect : Prop :=
  ∀ (s : State) (w : Desc) (rest : List HostAct) (ts : List Turn),
    s.fatal = false → s.port = .free → s.turns = .host :: ts → s.prog = .command w :: rest →
    ((Cmd.ofDesc w).opc ∉ [0x01, 0x10, 0x11, 0x12, 0x13] ∨ (Cmd.ofDesc w).legal = false) →
    step s = .next { s with turns := ts, prog := rest, rsps := s.rsps ++ [{ status := .illegalCommand, token := 0 }] }

/-! ### Key schedule and cipher -/

/-- R81: the 44 words of the key expansion. -/
def Obligations.KeyWordsFollowRecurrence : Prop :=
  ∀ key : Block,
    (keyWords key).length = 44 ∧
    (∀ i k : Fin 4, ((keyWords key).getD i.val zeroQuad)[k] = key[4 * i.val + k.val]) ∧
    ∀ i, 4 ≤ i → i < 44 → ∀ k : Fin 4,
      ((keyWords key).getD i zeroQuad)[k] = ((keyWords key).getD (i - 4) zeroQuad)[k] ^^^
        (if i % 4 = 0 then
          sbox ((keyWords key).getD (i - 1) zeroQuad)[(k.val + 1) % 4] ^^^ (if k = 0 then rcon (i / 4) else 0)
        else ((keyWords key).getD (i - 1) zeroQuad)[k])

/-- R88: the round keys are the words in order, and round key 0 is the key. -/
def Obligations.RoundKeysAreTheWords : Prop :=
  ∀ key : Block,
    (∀ (r : Fin 11) (c k : Fin 4),
      ((keyExpansion key)[r])[4 * c.val + k.val] = ((keyWords key).getD (4 * r.val + c.val) zeroQuad)[k]) ∧
    (keyExpansion key)[0] = key

/-- R84: the ten round constants, their construction, and that only byte 0 of the word changes by one. -/
def Obligations.RoundConstants : Prop :=
  (rcon 1 = 0x01 ∧ rcon 2 = 0x02 ∧ rcon 3 = 0x04 ∧ rcon 4 = 0x08 ∧ rcon 5 = 0x10 ∧ rcon 6 = 0x20 ∧ rcon 7 = 0x40 ∧
    rcon 8 = 0x80 ∧ rcon 9 = 0x1b ∧ rcon 10 = 0x36) ∧
  (∀ j, 1 ≤ j → j ≤ 10 → rcon j = xtimes (j - 1) 0x01) ∧
  ∀ (i : Nat) (t : Quad), i % 4 = 0 →
    (schedTemp i t)[0] = (subWord (rotWord t))[0] ^^^ rcon (i / 4) ∧
    (schedTemp i t)[1] = (subWord (rotWord t))[1] ∧ (schedTemp i t)[2] = (subWord (rotWord t))[2] ∧
    (schedTemp i t)[3] = (subWord (rotWord t))[3]

/-- R85, and R86's closing sentence: the table is the affine map of the inverse, and the S-box is a permutation with no fixed
point. -/
def Obligations.SboxIsAffineOfInverse : Prop :=
  (∀ a : Byte,
    sbox a = ginv a ^^^ (ginv a).rotateLeft 1 ^^^ (ginv a).rotateLeft 2 ^^^ (ginv a).rotateLeft 3 ^^^
      (ginv a).rotateLeft 4 ^^^ 0x63) ∧
  Function.Bijective sbox ∧ ∀ a : Byte, sbox a ≠ a

/-- R87: `xtime`; `gmul` by its value at each single bit and its additivity in both arguments; its values at 1, 2 and 3; the
inverse. -/
def Obligations.FieldMultiplication : Prop :=
  (∀ a : Byte, (xtime a).toNat =
    if a.toNat < 0x80 then 2 * a.toNat % 256 else Nat.xor (2 * a.toNat % 256) 0x1b) ∧
  (∀ a : Byte, ∀ k, k < 8 → gmul a ((1 : Byte) <<< k) = xtime^[k] a) ∧
  (∀ a b c : Byte, gmul (a ^^^ b) c = gmul a c ^^^ gmul b c ∧ gmul c (a ^^^ b) = gmul c a ^^^ gmul c b) ∧
  (∀ a : Byte, gmul a 1 = a ∧ gmul a 2 = xtime a ∧ gmul a 3 = xtime a ^^^ a) ∧
  (∀ a : Byte, a ≠ 0 → gmul a (ginv a) = 1) ∧ ginv 0 = 0

/-- R102 to R105: the four steps, byte by byte. -/
def Obligations.CipherStepsByteByByte : Prop :=
  ∀ s k : Block,
    (∀ j : Fin 16, (addRoundKey s k)[j] = s[j] ^^^ k[j]) ∧
    (∀ j : Fin 16, (subBytes s)[j] = sbox s[j]) ∧
    (∀ r c : Fin 4, (shiftRows s)[r.val + 4 * c.val] = s[r.val + 4 * ((c.val + r.val) % 4)]) ∧
    shiftRows s = #v[s[0], s[5], s[10], s[15], s[4], s[9], s[14], s[3], s[8], s[13], s[2], s[7], s[12], s[1], s[6],
      s[11]] ∧
    ∀ c : Fin 4,
      (mixColumns s)[4 * c.val + 0] =
        gmul s[4 * c.val + 0] 2 ^^^ gmul s[4 * c.val + 1] 3 ^^^ s[4 * c.val + 2] ^^^ s[4 * c.val + 3] ∧
      (mixColumns s)[4 * c.val + 1] =
        s[4 * c.val + 0] ^^^ gmul s[4 * c.val + 1] 2 ^^^ gmul s[4 * c.val + 2] 3 ^^^ s[4 * c.val + 3] ∧
      (mixColumns s)[4 * c.val + 2] =
        s[4 * c.val + 0] ^^^ s[4 * c.val + 1] ^^^ gmul s[4 * c.val + 2] 2 ^^^ gmul s[4 * c.val + 3] 3 ∧
      (mixColumns s)[4 * c.val + 3] =
        gmul s[4 * c.val + 0] 3 ^^^ s[4 * c.val + 1] ^^^ s[4 * c.val + 2] ^^^ gmul s[4 * c.val + 3] 2

/-- R106: rounds 1 to 9 with the four steps in order, round 10 without `MixColumns`, `RK[0]` before round 1. -/
def Obligations.RoundStructure : Prop :=
  ∀ (rk : RoundKeys) (x : Block),
    encryptBlock rk x =
      addRoundKey
        (shiftRows (subBytes
          ((List.range 9).foldl
            (fun s r => addRoundKey (mixColumns (shiftRows (subBytes s))) (rk.toList.getD (r + 1) zeroBlock))
            (addRoundKey x rk[0]))))
        rk[10]

/-- R100: for a fixed key schedule, encryption is a permutation of the blocks. -/
def Obligations.EncryptBlockPermutes : Prop := ∀ rk : RoundKeys, Function.Bijective (encryptBlock rk)

/-- R90, R100 on the vectors V2 and V4 of 95_test_vectors.md: a sanity statement. -/
def Obligations.NistVector : Prop :=
  let key : Block := #v[0x2b, 0x7e, 0x15, 0x16, 0x28, 0xae, 0xd2, 0xa6, 0xab, 0xf7, 0x15, 0x88, 0x09, 0xcf, 0x4f, 0x3c]
  let ctr : Block := #v[0xf0, 0xf1, 0xf2, 0xf3, 0xf4, 0xf5, 0xf6, 0xf7, 0xf8, 0xf9, 0xfa, 0xfb, 0xfc, 0xfd, 0xfe, 0xff]
  (keyExpansion key)[10] =
    #v[0xd0, 0x14, 0xf9, 0xa8, 0xc9, 0xee, 0x25, 0x89, 0xe1, 0x3f, 0x0c, 0xc8, 0xb6, 0x63, 0x0c, 0xa6] ∧
  encryptBlock (keyExpansion key) ctr =
    #v[0xec, 0x8c, 0xdf, 0x73, 0x98, 0x60, 0x7c, 0xb0, 0xf2, 0xd2, 0x16, 0x75, 0xea, 0x9e, 0xa1, 0xe4]

/-! ### The counter-mode transform as a function -/

/-- R10: `be128` is the weighted sum of the bytes, and `bytes128` its inverse. -/
def Obligations.CounterBytesInverse : Prop :=
  (∀ b : Block, (be128 b.toList).toNat = ((List.range 16).map fun i => (b.toList.getD i 0).toNat * 256 ^ (15 - i)).sum) ∧
  (∀ c : BitVec 128, be128 (bytes128 c).toList = c) ∧
  ∀ b : Block, bytes128 (be128 b.toList) = b

/-- R123: the increment modulo 2^128, the same on bytes from byte 15 on, the silent wrap, and the count of increments of
an operation. -/
def Obligations.CounterIncrement : Prop :=
  (∀ c : BitVec 128, (inc128 c).toNat = (c.toNat + 1) % 2 ^ 128) ∧
  (∀ c : BitVec 128, (bytes128 (inc128 c)).toList = (incLow (bytes128 c).toList.reverse).reverse) ∧
  inc128 (BitVec.allOnes 128) = 0 ∧
  ∀ (rk : RoundKeys) (bs : List Byte) (c : BitVec 128),
    (ctrProcess rk bs c).2.toNat = (c.toNat + (bs.length + 15) / 16) % 2 ^ 128

/-- R122, R133 (length preservation and locality): each transformed byte is the old one xor one keystream byte. -/
def Obligations.CtrProcessByByte : Prop :=
  ∀ (rk : RoundKeys) (bs : List Byte) (c : BitVec 128),
    (ctrProcess rk bs c).1.length = bs.length ∧
    ∀ k, k < bs.length →
      (ctrProcess rk bs c).1.getD k 0 =
        bs.getD k 0 ^^^ (encryptBlock rk (bytes128 (c + BitVec.ofNat 128 (k / 16)))).toList.getD (k % 16) 0

/-- R133 (round-trip), R125: transforming twice from the same counter gives the bytes back. -/
def Obligations.CtrProcessRoundTrip : Prop :=
  ∀ (rk : RoundKeys) (bs : List Byte) (c : BitVec 128), (ctrProcess rk (ctrProcess rk bs c).1 c).1 = bs

/-- R133 (counter advancement), R124: a first part of whole chunks, then the rest from the advanced counter, is the whole
in one piece. -/
def Obligations.CtrProcessSplits : Prop :=
  ∀ (rk : RoundKeys) (b1 b2 : List Byte) (c : BitVec 128) (n : Nat), b1.length = 16 * n →
    ctrProcess rk (b1 ++ b2) c =
      ((ctrProcess rk b1 c).1 ++ (ctrProcess rk b2 (ctrProcess rk b1 c).2).1,
        (ctrProcess rk b2 (ctrProcess rk b1 c).2).2)

/-! ### Memory -/

/-- R42: `MemRead` and `MemWrite` on a well-formed range: all of it, or a fatal fault with nothing read or written. -/
def Obligations.AccessPrimitives : Prop :=
  ∀ (a n : Nat) (bs : List Byte) (s : State), a + n ≤ memSize →
    ((∀ k, k < n → Platform.mapped s.plat (a + k) = true) →
      (∃ r, memRead a n s = .ok r ∧ r.length = n ∧ ∀ k, k < n → r.getD k 0 = Memory.read s.mem (a + k)) ∧
      (n ≤ bs.length → Memory.wf s.mem →
        ∃ t, memWrite a n bs s = .ok t ∧ t = { s with mem := t.mem } ∧
          (∀ k, k < n → Memory.read t.mem (a + k) = bs.getD k 0) ∧
          ∀ x, (x < a ∨ a + n ≤ x) → Memory.read t.mem x = Memory.read s.mem x)) ∧
    ((∃ k, k < n ∧ Platform.mapped s.plat (a + k) = false) →
      memRead a n s = .error { s with fatal := true } ∧ memWrite a n bs s = .error { s with fatal := true })

/-- R31: the owned addresses. -/
def Obligations.OwnedAddresses : Prop :=
  ∀ (q : List Pending) (x : Nat),
    owned q x = true ↔
      ∃ p ∈ q, (∃ k, k < p.len.toNat ∧ x = p.buf.toNat + k) ∨
        (0 < p.len.toNat ∧ ∃ k, k < 16 ∧ x = p.ctr.toNat + k)

/-! ### SET_KEY -/

/-- R80, R88: a valid `SET_KEY` with nothing outstanding and its key bytes mapped installs the expansion of the 16 bytes
and responds `OK`; nothing else changes. -/
def Obligations.SetKeyInstalls : Prop :=
  ∀ (a0 : Word) (s : State), a0.toNat + 16 ≤ memSize → s.q = [] →
    (∀ k, k < 16 → Platform.mapped s.plat (a0.toNat + k) = true) →
    exec (.setKey a0 16) s =
      .next { s with
        port := .free, keyValid := true,
        rk := keyExpansion (Vector.ofFn fun j => Memory.read s.mem (a0.toNat + j.val)),
        rsps := s.rsps ++ [{ status := .ok, token := 0 }] }

/-- R80: the other outcomes of `SET_KEY`, in the order of its checks. -/
def Obligations.SetKeyOtherwise : Prop :=
  ∀ (a0 l0 : Word) (s : State),
    (l0 ≠ 16 → exec (.setKey a0 l0) s = rejected s .invalidKeyLength) ∧
    (l0 = 16 → memSize < a0.toNat + 16 → exec (.setKey a0 l0) s = rejected s .illegalCommand) ∧
    (l0 = 16 → a0.toNat + 16 ≤ memSize → s.q ≠ [] →
      exec (.setKey a0 l0) s = .next { s with port := .held (encode (.setKey a0 l0)) }) ∧
    (l0 = 16 → a0.toNat + 16 ≤ memSize → s.q = [] →
      (∃ k, k < 16 ∧ Platform.mapped s.plat (a0.toNat + k) = false) →
      exec (.setKey a0 l0) s = .next { s with port := .held (encode (.setKey a0 l0)), fatal := true })

/-- R80 (frame): whatever next state `SET_KEY` leads to, it changes `KEY_VALID`, `RK`, `FATAL`, `PORT` and the responses at
most, so no byte of memory. -/
def Obligations.SetKeyFrame : Prop :=
  ∀ (a0 l0 : Word) (s t : State), exec (.setKey a0 l0) s = .next t →
    t = { s with keyValid := t.keyValid, rk := t.rk, fatal := t.fatal, port := t.port, rsps := t.rsps } ∧
    ∀ x, Memory.read t.mem x = Memory.read s.mem x

/-! ### Transforms -/

/-- R141, R174: the validation of the four transforms, in order, with the response of the first failing check and no other
effect. -/
def Obligations.TransformValidation : Prop :=
  ∀ (a0 l0 a1 l1 cb tok : Word) (s : State),
    (∀ i ∈ syncCommands a0 l0 a1 l1 ++ asyncCommands a0 l0 a1 l1 cb tok,
      (s.keyValid = false → exec i s = rejected s .keyNotSet) ∧
      (s.keyValid = true → l1 ≠ 16 → exec i s = rejected s .invalidCounterLength) ∧
      (s.keyValid = true → l1 = 16 → (memSize < a0.toNat + l0.toNat ∨ memSize < a1.toNat + 16) →
        exec i s = rejected s .illegalCommand)) ∧
    (∀ i ∈ asyncCommands a0 l0 a1 l1 cb tok,
      s.keyValid = true → l1 = 16 → a0.toNat + l0.toNat ≤ memSize → a1.toNat + 16 ≤ memSize →
      (∃ d, s.plat.qdepth = some d ∧ d ≤ s.q.length) → exec i s = rejected s .submissionRejected) ∧
    ∀ w e, decode w = .error e → runCommand w s = rejected s .illegalCommand

/-- R142, R143, R126, R132, R134: a valid synchronous transform with nothing outstanding and its bytes mapped transforms the
buffer, advances the counter in memory, and responds `OK`; with no bytes it responds `OK` and touches nothing, whatever is
mapped. The scratch registers hold free values afterwards (R26, R27), and the statement holds for every value of them. -/
def Obligations.SyncTransformCompletes : Prop :=
  ∀ (a0 l0 a1 : Word) (s : State), ∀ i ∈ syncCommands a0 l0 a1 16,
    Memory.wf s.mem → s.keyValid = true → s.q = [] → a0.toNat + l0.toNat ≤ memSize → a1.toNat + 16 ≤ memSize →
    (∀ x, touches (opOf a0 l0 a1) x → Platform.mapped s.plat x = true) →
    ∃ t, exec i s = .next t ∧
      t = { s with
        port := .free, rsps := s.rsps ++ [{ status := .ok, token := 0 }],
        mem := t.mem, ctrw := t.ctrw, idx := t.idx, ksb := t.ksb, draws := t.draws } ∧
      t.idx ≤ 2 ^ 28 ∧ (l0 = 0 → t.mem = s.mem) ∧
      ∀ x, Memory.read t.mem x = transformedByte s (opOf a0 l0 a1) x

/-- R155, R25: a valid synchronous transform with operations outstanding stays on the port and changes nothing else. -/
def Obligations.SyncTransformHeld : Prop :=
  ∀ (a0 l0 a1 : Word) (s : State), ∀ i ∈ syncCommands a0 l0 a1 16,
    s.keyValid = true → a0.toNat + l0.toNat ≤ memSize → a1.toNat + 16 ≤ memSize → s.q ≠ [] →
    exec i s = .next { s with port := .held (encode i) }

/-- R175, R130, R142: a synchronous transform that meets an unmapped byte sets `FATAL`, gives no response, leaves the
command on the port and the counter region unwritten; with the counter mapped, exactly the `n` chunks before the one with the
unmapped byte are transformed. That they stay transformed, where R142 says only "possibly partly transformed", is the model's
reading (log entry 10); the scratch registers hold free values afterwards (R27; log entry 12). -/
def Obligations.SyncTransformFatalFault : Prop :=
  ∀ (a0 l0 a1 : Word) (s : State), ∀ i ∈ syncCommands a0 l0 a1 16,
    Memory.wf s.mem → s.keyValid = true → s.q = [] → a0.toNat + l0.toNat ≤ memSize → a1.toNat + 16 ≤ memSize →
    (∃ x, touches (opOf a0 l0 a1) x ∧ Platform.mapped s.plat x = false) →
    ∃ t, exec i s = .next t ∧
      t = { s with
        port := .held (encode i), fatal := true, mem := t.mem, ctrw := t.ctrw, idx := t.idx, ksb := t.ksb,
        draws := t.draws } ∧
      t.idx ≤ 2 ^ 28 ∧
      ((∃ k, k < 16 ∧ Platform.mapped s.plat (a1.toNat + k) = false) → t.mem = s.mem) ∧
      ((∀ k, k < 16 → Platform.mapped s.plat (a1.toNat + k) = true) →
        ∃ n, (∃ k, k < min 16 (l0.toNat - 16 * n) ∧ Platform.mapped s.plat (a0.toNat + 16 * n + k) = false) ∧
          (∀ k, k < 16 * n → Platform.mapped s.plat (a0.toNat + k) = true) ∧
          ∀ x, Memory.read t.mem x = partlyTransformedByte s (opOf a0 l0 a1) (16 * n) x)

/-- R142, R143 (frame): a synchronous transform changes the scratch registers (and the model's count of draws, log entry 6),
`FATAL`, the port, the responses and the bytes of its own regions at most. -/
def Obligations.SyncTransformFrame : Prop :=
  ∀ (a0 l0 a1 l1 : Word) (s t : State), ∀ i ∈ syncCommands a0 l0 a1 l1, exec i s = .next t →
    t = { s with
      port := t.port, rsps := t.rsps, fatal := t.fatal, mem := t.mem, ctrw := t.ctrw, idx := t.idx, ksb := t.ksb,
      draws := t.draws } ∧
    ∀ x, ¬ touches (opOf a0 l0 a1) x → Memory.read t.mem x = Memory.read s.mem x

/-- R125: where the encrypting command completes, the decrypting command with the same operands gives the same state, and
the kind of a Pending Operation changes nothing in any of the three engine operations. -/
def Obligations.KindChangesNothing : Prop :=
  (∀ (a0 l0 a1 l1 : Word) (s t : State), t.port = .free →
    (exec (.encryptCtrSync a0 l0 a1 l1) s = .next t ↔ exec (.decryptCtrSync a0 l0 a1 l1) s = .next t)) ∧
  ∀ (p : Op) (k : Kind) (s : State),
    opStart { p with kind := k } s = opStart p s ∧ opChunk { p with kind := k } s = opChunk p s ∧
      opFinish { p with kind := k } s = opFinish p s

/-- R144, R145: a valid submission with room in the queue is appended and answered `SUBMITTED` with its token; nothing
else changes. -/
def Obligations.AsyncTransformSubmits : Prop :=
  ∀ (a0 l0 a1 cb tok : Word) (s : State), s.keyValid = true → a0.toNat + l0.toNat ≤ memSize →
    a1.toNat + 16 ≤ memSize → (∀ d, s.plat.qdepth = some d → s.q.length < d) →
    exec (.encryptCtrAsync a0 l0 a1 16 cb tok) s =
      .next { s with
        port := .free, rsps := s.rsps ++ [{ status := .submitted, token := tok }],
        q := s.q ++ [{ kind := .encrypt, buf := a0, len := l0, ctr := a1, cb := cb, tok := tok }] } ∧
    exec (.decryptCtrAsync a0 l0 a1 16 cb tok) s =
      .next { s with
        port := .free, rsps := s.rsps ++ [{ status := .submitted, token := tok }],
        q := s.q ++ [{ kind := .decrypt, buf := a0, len := l0, ctr := a1, cb := cb, tok := tok }] }

/-- R144, R145 (frame): a submission changes `Q`, the port and the responses at most; it never touches memory, is never
held, and never raises the fatal fault. -/
def Obligations.AsyncTransformFrame : Prop :=
  ∀ (a0 l0 a1 l1 cb tok : Word) (s : State), ∀ i ∈ asyncCommands a0 l0 a1 l1 cb tok,
    ∃ t, exec i s = .next t ∧ t = { s with port := .free, rsps := t.rsps, q := t.q } ∧
      (t.q = s.q ∨ ∃ p, t.q = s.q ++ [p]) ∧ ∀ x, Memory.read t.mem x = Memory.read s.mem x

/-- R172: a command that is answered with a negative status has changed nothing but the response, whose token is 0. -/
def Obligations.RejectionChangesNothing : Prop :=
  ∀ (w : Desc) (s t : State) (r : Rsp), runCommand w s = .next t → t.rsps = s.rsps ++ [r] →
    Status.code r.status < 0 →
    r.token = 0 ∧ t = { s with port := .free, rsps := s.rsps ++ [r] }

/-- R140: a command either stays on the port with no response, or has exactly one response and leaves the port free. -/
def Obligations.OneResponsePerCommand : Prop :=
  ∀ (w : Desc) (s : State), ∃ t, runCommand w s = .next t ∧
    ((t.port = .held w ∧ t.rsps = s.rsps) ∨ (t.port = .free ∧ ∃ r, t.rsps = s.rsps ++ [r]))

/-! ### The engine -/

/-- R149, R129: the start step. -/
def Obligations.EngineStart : Prop :=
  ∀ (s : State) (p : Pending) (rest : List Pending), s.fatal = false → s.eng = .idle → s.q = p :: rest →
    (p.len = 0 → engineStep s = .next { s with idx := 0, eng := .run }) ∧
    (p.len ≠ 0 → (∀ k, k < 16 → Platform.mapped s.plat (p.ctr.toNat + k) = true) →
      engineStep s =
        .next { s with ctrw := be128 (Memory.readBytes s.mem p.ctr.toNat 16), idx := 0, eng := .run }) ∧
    (p.len ≠ 0 → (∃ k, k < 16 ∧ Platform.mapped s.plat (p.ctr.toNat + k) = false) →
      engineStep s = .next { s with fatal := true })

/-- R150, R130: the chunk step. -/
def Obligations.EngineChunk : Prop :=
  ∀ (s : State) (p : Pending) (rest : List Pending), s.fatal = false → s.eng = .run → s.q = p :: rest →
    s.idx < (p.len.toNat + 15) / 16 → Memory.wf s.mem →
    ((∀ k, k < min 16 (p.len.toNat - 16 * s.idx) →
        Platform.mapped s.plat (p.buf.toNat + 16 * s.idx + k) = true) →
      ∃ t, engineStep s = .next t ∧
        t = { s with
          ksb := encryptBlock s.rk (bytes128 s.ctrw), ctrw := s.ctrw + 1, idx := s.idx + 1, mem := t.mem } ∧
        (∀ k, k < min 16 (p.len.toNat - 16 * s.idx) →
          Memory.read t.mem (p.buf.toNat + 16 * s.idx + k) =
            Memory.read s.mem (p.buf.toNat + 16 * s.idx + k) ^^^
              (encryptBlock s.rk (bytes128 s.ctrw)).toList.getD k 0) ∧
        ∀ x, (x < p.buf.toNat + 16 * s.idx ∨
            p.buf.toNat + 16 * s.idx + min 16 (p.len.toNat - 16 * s.idx) ≤ x) →
          Memory.read t.mem x = Memory.read s.mem x) ∧
    ((∃ k, k < min 16 (p.len.toNat - 16 * s.idx) ∧
        Platform.mapped s.plat (p.buf.toNat + 16 * s.idx + k) = false) →
      engineStep s = .next { s with ksb := encryptBlock s.rk (bytes128 s.ctrw), fatal := true })

/-- R151, R131: the finish step. The scratch registers hold free values after it (R26, R27), and the statement holds for every
value of them. -/
def Obligations.EngineFinish : Prop :=
  ∀ (s : State) (p : Pending) (rest : List Pending), s.fatal = false → s.eng = .run → s.q = p :: rest →
    s.idx = (p.len.toNat + 15) / 16 → Memory.wf s.mem →
    ((p.len = 0 ∨ ∀ k, k < 16 → Platform.mapped s.plat (p.ctr.toNat + k) = true) →
      ∃ t, engineStep s = .next t ∧
        t = { s with
          nlog := s.nlog ++ [{ cb := p.cb, kind := p.kind, tok := p.tok }], q := rest, eng := .idle, mem := t.mem,
          ctrw := t.ctrw, idx := t.idx, ksb := t.ksb, draws := t.draws } ∧
        t.idx ≤ 2 ^ 28 ∧ (p.len = 0 → t.mem = s.mem) ∧
        (p.len ≠ 0 → ∀ k, k < 16 → Memory.read t.mem (p.ctr.toNat + k) = (bytes128 s.ctrw).toList.getD k 0) ∧
        ∀ x, (x < p.ctr.toNat ∨ p.ctr.toNat + 16 ≤ x) → Memory.read t.mem x = Memory.read s.mem x) ∧
    ((p.len ≠ 0 ∧ ∃ k, k < 16 ∧ Platform.mapped s.plat (p.ctr.toNat + k) = false) →
      engineStep s = .next { s with fatal := true })

/-- R49, R149 to R151 (frame): an engine step changes `ENG`, the scratch registers (and the model's count of draws, log entry
6), `FATAL`, `Q`, `NLOG` and the bytes of the head operation's own regions at most, and nothing at all where no engine step is
enabled. -/
def Obligations.EngineFrame : Prop :=
  ∀ s t : State, engineStep s = .next t →
    t = { s with
      eng := t.eng, fatal := t.fatal, ctrw := t.ctrw, idx := t.idx, ksb := t.ksb, draws := t.draws, q := t.q,
      nlog := t.nlog, mem := t.mem } ∧
    (∀ p, s.q.head? = some p → ∀ x, ¬ touches p.toOp x → Memory.read t.mem x = Memory.read s.mem x) ∧
    (s.fatal = true ∨ s.q = [] → t = s)

/-- R154: while `FATAL` is 0 and `Q` is not empty, the engine has a step, and it starts, advances or finishes the head
operation, or raises the fatal fault. -/
def Obligations.EngineProgress : Prop :=
  ∀ (s : State) (p : Pending) (rest : List Pending), s.QueueInv → s.fatal = false → s.q = p :: rest →
    ∃ t, engineStep s = .next t ∧
      (t.fatal = true ∨
        (s.eng = .idle ∧ t.eng = .run ∧ t.idx = 0 ∧ t.q = s.q) ∨
        (s.eng = .run ∧ t.eng = .run ∧ t.idx = s.idx + 1 ∧ t.q = s.q) ∨
        (s.eng = .run ∧ t.eng = .idle ∧ t.q = rest ∧ t.nlog = s.nlog ++ [p.ntf]))

/-- R154, R91, R155, R148, R199: with everything mapped, the engine alone empties `Q` in the stated number of steps, in order,
with one notification each, and a command held on the port then finds nothing outstanding. -/
def Obligations.QueueDrains : Prop :=
  ∀ (s : State) (ts : List Turn), s.QueueInv → s.fatal = false → s.eng = .idle → s.plat.holes = [] →
    s.turns = List.replicate (s.q.map fun p => (p.len.toNat + 15) / 16 + 2).sum .engine ++ ts →
    ∃ t, Sys2Proof.core.run (s.q.map fun p => (p.len.toNat + 15) / 16 + 2).sum s = .next t ∧
      t = { s with
        turns := ts, q := [], nlog := s.nlog ++ s.q.map Pending.ntf, mem := t.mem, ctrw := t.ctrw, idx := t.idx,
        ksb := t.ksb, draws := t.draws }

/-- R154, R151, R158, R132: an accepted operation completes in `ceil(len/16) + 2` engine steps, with the memory that one
`CtrRun` gives, exactly one notification, and its record gone. The scratch registers hold free values afterwards (R26, R27),
and the statement holds for every value of them. -/
def Obligations.AsyncOperationCompletes : Prop :=
  ∀ (s : State) (p : Pending) (rest : List Pending) (ts : List Turn) (t : State),
    s.fatal = false → s.eng = .idle → s.q = p :: rest →
    s.turns = List.replicate ((p.len.toNat + 15) / 16 + 2) .engine ++ ts → ctrRun p.toOp s = .ok t →
    ∃ u, Sys2Proof.core.run ((p.len.toNat + 15) / 16 + 2) s = .next u ∧
      u = { t with
        turns := ts, q := rest, nlog := s.nlog ++ [{ cb := p.cb, kind := p.kind, tok := p.tok }],
        ctrw := u.ctrw, idx := u.idx, ksb := u.ksb, draws := u.draws }

/-- R132, R134: `CtrRun` on memory is `CtrProcess` of the buffer and the counter as they are before it, the advanced counter
written last; it changes nothing but memory and the scratch registers. -/
def Obligations.CtrRunIsCtrProcess : Prop :=
  ∀ (p : Op) (s : State), Memory.wf s.mem → (∀ x, touches p x → Platform.mapped s.plat x = true) →
    ∃ t, ctrRun p s = .ok t ∧ t = { s with mem := t.mem, ctrw := t.ctrw, idx := t.idx, ksb := t.ksb } ∧
      ∀ x, Memory.read t.mem x = transformedByte s p x

/-! ### Whole-machine rules -/

/-- R175, R23: with `FATAL` 1 no step but reset clears it, presents or answers a command, or moves the engine. -/
def Obligations.FatalStopsBlock : Prop :=
  ∀ s t : State, s.fatal = true → s.turn ≠ .reset → step s = .next t →
    t = { s with turns := t.turns, mem := t.mem, reads := t.reads, prog := t.prog, draws := t.draws } ∧
    (s.port ≠ .free → t = { s with turns := t.turns })

/-- R89, R21: only a completed `SET_KEY` writes `RK` or `KEY_VALID`, reset apart, and it does so with nothing
outstanding. -/
def Obligations.OnlySetKeyWritesKey : Prop :=
  ∀ s t : State, s.turn ≠ .reset → step s = .next t →
    (t.rk = s.rk ∧ t.keyValid = s.keyValid) ∨
    (t.keyValid = true ∧ s.q = [] ∧ t.rsps = s.rsps ++ [{ status := .ok, token := 0 }] ∧
      ∃ w a0, decode w = .ok (.setKey a0 16) ∧ (s.port = .held w ∨ s.prog.head? = some (.command w)))

/-- R152, R147, R153: reset apart, a record enters `Q` only at its end and with a `SUBMITTED` response, and leaves only from its
head, by the engine, with exactly one notification; nothing else changes `Q` or `NLOG`. -/
def Obligations.QueueChanges : Prop :=
  ∀ s t : State, s.turn ≠ .reset → step s = .next t →
    (t.q = s.q ∧ t.nlog = s.nlog) ∨
    (∃ p, t.q = s.q ++ [p] ∧ t.nlog = s.nlog ∧ s.turn = .host ∧
      t.rsps = s.rsps ++ [{ status := .submitted, token := p.tok }]) ∨
    (∃ p, s.q = p :: t.q ∧ t.nlog = s.nlog ++ [{ cb := p.cb, kind := p.kind, tok := p.tok }] ∧ s.turn = .engine ∧
      s.eng = .run ∧ t.eng = .idle ∧ t.rsps = s.rsps)

/-- R33: two states that differ in the round keys alone step to states that differ at most in the round keys, in `KSB`, and in
the data bytes of the buffer being transformed: so `CTRW` and `IDX`, the control state, everything on the three ports, what the
host's loads return, and whether a step faults do not depend on the round keys. That other bytes agree is said of canonical
memory, which StepKeepsMemory keeps. -/
def Obligations.PortsRevealNoKey : Prop :=
  ∀ (s : State) (rk : RoundKeys),
    (∀ t, step s = .next t → ∃ t', step { s with rk := rk } = .next t' ∧
      t' = { t with rk := t'.rk, ksb := t'.ksb, mem := t'.mem } ∧
      (Memory.wf s.mem → ∀ x,
        (∀ p, mayTransform s p → ¬ (p.buf.toNat ≤ x ∧ x < p.buf.toNat + p.len.toNat)) →
          Memory.read t'.mem x = Memory.read t.mem x)) ∧
    ∀ f, step s = .fault f → step { s with rk := rk } = .fault f

/-- R200, R54, R40: no step is refused, and a step faults exactly when the host stores to an owned address or accesses past
the top of the address space (log entries 8 and 9). -/
def Obligations.OnlyHostAccessesFault : Prop :=
  ∀ s : State, (∀ r, step s ≠ .refused r) ∧
    ∀ f, step s = .fault f ↔
      s.turn = .host ∧ s.port = .free ∧
      ((∃ a n rest, s.prog = .load a n :: rest ∧ memSize < a.toNat + n ∧ f = .outsideMemory) ∨
        (∃ a bs rest, s.prog = .store a bs :: rest ∧ memSize < a.toNat + bs.length ∧ f = .outsideMemory) ∨
        ∃ a bs rest, s.prog = .store a bs :: rest ∧ a.toNat + bs.length ≤ memSize ∧
          (∃ k, k < bs.length ∧ owned s.q (a.toNat + k) = true) ∧ f = .ownershipViolation)

/-- R54 (b), R200: a host load or a host store that owns its addresses, on the host's turn with the port free. A byte that
an outstanding operation owns reads as a free value: the statement holds for every value of it. -/
def Obligations.HostAccess : Prop :=
  ∀ (s : State) (a : Word) (rest : List HostAct) (ts : List Turn), s.port = .free → s.turns = .host :: ts →
    (∀ n, s.prog = .load a n :: rest → a.toNat + n ≤ memSize →
      ∃ bs, step s =
          .next { s with
            turns := ts, prog := rest, reads := s.reads ++ [{ addr := a, bytes := bs }], draws := s.draws + n } ∧
        bs.length = n ∧
        ∀ k, k < n → owned s.q (a.toNat + k) = false → bs.getD k 0 = Memory.read s.mem (a.toNat + k)) ∧
    ∀ bs, s.prog = .store a bs :: rest → a.toNat + bs.length ≤ memSize → Memory.wf s.mem →
      (∀ k, k < bs.length → owned s.q (a.toNat + k) = false) →
      ∃ t, step s = .next t ∧ t = { s with turns := ts, prog := rest, mem := t.mem } ∧
        (∀ k, k < bs.length → Memory.read t.mem (a.toNat + k) = bs.getD k 0) ∧
        ∀ x, (x < a.toNat ∨ a.toNat + bs.length ≤ x) → Memory.read t.mem x = Memory.read s.mem x

/-- R190, R191: the reset event, at any point. -/
def Obligations.ResetEvent : Prop :=
  ∀ (s : State) (ts : List Turn), s.turns = .reset :: ts →
    ∃ t, step s = .next t ∧ t.keyValid = false ∧ t.fatal = false ∧ t.eng = .idle ∧ t.port = .free ∧ t.q = [] ∧
      t.nlog = [] ∧ t.mem = s.mem ∧ t.plat = s.plat ∧ t.prog = s.prog ∧ t.turns = ts ∧ t.idx ≤ 2 ^ 28 ∧
      ∀ x, owned t.q x = false

/-- R35, R7: what the machine holds right after reset, where the spec gives a value, with the two parameters at the defaults of R7 (log
entry 3). -/
def Obligations.ResetState : Prop :=
  State.reset.keyValid = false ∧ State.reset.fatal = false ∧ State.reset.eng = .idle ∧ State.reset.port = .free ∧
  State.reset.q = [] ∧ State.reset.nlog = [] ∧ State.reset.plat.qdepth = some 4 ∧
  ∀ x, x < 2 ^ 32 → Platform.mapped State.reset.plat x = true

/-- R7, R32: no step writes the parameters, and a step takes one turn and at most one action of the host (log entries
3 and 4). -/
def Obligations.InputsAndParameters : Prop :=
  ∀ s t : State, step s = .next t →
    t.plat = s.plat ∧ t.turns = s.turns.tail ∧ (t.prog = s.prog ∨ (s.turn = .host ∧ t.prog = s.prog.tail))

/-! ### Invariants -/

/-- The invariants hold at reset (R35). -/
def Obligations.ResetMeetsInvariants : Prop :=
  State.reset.MemInv ∧ State.reset.QueueInv ∧ State.reset.PortInv ∧ State.reset.KeyInv ∧ State.reset.TraceInv ∧
    State.reset.plat.wf

/-- R40: every step keeps the memory inside the address space and in the model's canonical form (log entry 1). -/
def Obligations.StepKeepsMemory : Prop := ∀ s t : State, s.MemInv → step s = .next t → t.MemInv

/-- R24, R27, R29, R107: every step keeps the queue and engine invariants. -/
def Obligations.StepKeepsQueue : Prop := ∀ s t : State, s.QueueInv → step s = .next t → t.QueueInv

/-- R25: every step keeps it that only a valid `SET_KEY` or synchronous transform stays on the port. -/
def Obligations.StepKeepsPort : Prop := ∀ s t : State, s.PortInv → step s = .next t → t.PortInv

/-- R89: every step keeps `RK` the expansion of some key while `KEY_VALID` is 1. -/
def Obligations.StepKeepsKeySchedule : Prop := ∀ s t : State, s.KeyInv → step s = .next t → t.KeyInv

/-- R148, R152: every step keeps it that the accepted operations, in order, are the notified ones and then the queued
ones; the trace of responses is the model's own field (log entry 7). -/
def Obligations.StepKeepsExactlyOnce : Prop := ∀ s t : State, s.TraceInv → step s = .next t → t.TraceInv
end

