-- ==== Sys2Proof/Laws/Decode.lean ====
section
/-!
SUPPORT. The fields of a descriptor and the descriptor of its fields are inverse to each other, and every encoded command
has legal fields.
-/

namespace Sys2Proof

/-- Taking a descriptor's fields and putting them together gives the descriptor back. -/
theorem Cmd.toDesc_ofDesc (w : Desc) : (Cmd.ofDesc w).toDesc = w := by
  apply BitVec.eq_of_getLsbD_eq
  intro k hk
  simp only [Cmd.toDesc, Cmd.ofDesc, BitVec.getLsbD_append, BitVec.getLsbD_extractLsb', Nat.zero_add]
  repeat' split
  all_goals
    first
      | (rw [decide_eq_true (by omega), Bool.true_and]
         done)
      | (rw [decide_eq_true (by omega), Bool.true_and]
         exact congrArg (BitVec.getLsbD w) (by omega))

/-- Putting fields together and taking them apart gives the fields back. -/
theorem Cmd.ofDesc_toDesc (c : Cmd) : Cmd.ofDesc c.toDesc = c := by
  obtain ⟨opc, rsv0, a0, l0, a1, l1, cb, tok, rsv1⟩ := c
  simp only [Cmd.toDesc, Cmd.ofDesc, Cmd.mk.injEq]
  refine ⟨?_, ?_, ?_, ?_, ?_, ?_, ?_, ?_, ?_⟩ <;>
  · apply BitVec.eq_of_getLsbD_eq
    intro k hk
    simp only [BitVec.getLsbD_append, BitVec.getLsbD_extractLsb']
    rw [decide_eq_true hk, Bool.true_and]
    repeat rw [if_neg (by omega)]
    try rw [if_pos (by omega)]
    exact congrArg (BitVec.getLsbD _) (by omega)

/-- The fields of an encoded command are the command's. -/
theorem ofDesc_encode (i : Instr) : Cmd.ofDesc (encode i) = encodeCmd i := Cmd.ofDesc_toDesc _

end Sys2Proof
end

