-- ==== Sys2Proof/Laws/Memory.lean ====
section
/-!
SUPPORT. The laws of byte memory: reading after writing, and that every operation keeps the canonical form.
-/

namespace Sys2Proof.Machine

theorem Memory.reset_wf : Memory.wf State.reset.mem := by decide

@[simp] theorem Memory.read_nil (x : Nat) : Memory.read [] x = Memory.unlisted := rfl

theorem Memory.read_cons (c : Host.Cell) (m : Memory) (x : Nat) :
    Memory.read (c :: m) x = if c.1 = x then c.2 else Memory.read m x := rfl

/-- An address below every listed address is unlisted. -/
theorem Memory.read_of_lt (m : Memory) (x : Nat) (h : ∀ c ∈ m, x < c.1) :
    Memory.read m x = Memory.unlisted := by
  induction m with
  | nil => rfl
  | cons c m ih =>
    have hc := h c (by simp)
    rw [Memory.read_cons, if_neg (by omega)]
    exact ih fun d hd => h d (by simp [hd])

/-- An entry after a write is an old one or the written one. -/
theorem Memory.mem_write {m : Memory} {x : Nat} {v : Byte} {c : Host.Cell} (h : c ∈ Memory.write m x v) :
    c ∈ m ∨ (c = (x, v) ∧ v ≠ Memory.unlisted) := by
  induction m with
  | nil =>
    simp only [Memory.write] at h
    split at h
    · simp at h
    · exact .inr ⟨by simpa using h, ‹_›⟩
  | cons d m ih =>
    obtain ⟨a, b⟩ := d
    simp only [Memory.write] at h
    split at h
    · split at h
      · exact .inl h
      · rcases List.mem_cons.1 h with h | h
        · exact .inr ⟨h, ‹_›⟩
        · exact .inl h
    · split at h
      · split at h
        · exact .inl (List.mem_cons_of_mem _ h)
        · rcases List.mem_cons.1 h with h | h
          · exact .inr ⟨h, ‹_›⟩
          · exact .inl (List.mem_cons_of_mem _ h)
      · rcases List.mem_cons.1 h with h | h
        · exact .inl (by simp [h])
        · exact (ih h).imp (List.mem_cons_of_mem _) id

/-- Writing keeps the canonical form. -/
theorem Memory.write_wf {m : Memory} (x : Nat) (v : Byte) (h : Memory.wf m) : Memory.wf (Memory.write m x v) := by
  refine ⟨?_, fun c hc => ?_⟩
  · have hp := h.1
    clear h
    induction m with
    | nil =>
      simp only [Memory.write]
      split <;> simp
    | cons d m ih =>
      obtain ⟨a, b⟩ := d
      rw [List.pairwise_cons] at hp
      simp only [Memory.write]
      split
      · split
        · exact List.pairwise_cons.2 hp
        · refine List.pairwise_cons.2 ⟨fun c hc => ?_, List.pairwise_cons.2 hp⟩
          rcases List.mem_cons.1 hc with rfl | hc
          · assumption
          · have := hp.1 c hc
            simp only at this ⊢
            omega
      · split
        · subst x
          split
          · exact hp.2
          · exact List.pairwise_cons.2 hp
        · refine List.pairwise_cons.2 ⟨fun c hc => ?_, ih hp.2⟩
          rcases Memory.mem_write hc with hc | ⟨rfl, -⟩
          · exact hp.1 c hc
          · simp only
            omega
  · rcases Memory.mem_write hc with hc | ⟨rfl, hv⟩
    · exact h.2 c hc
    · exact hv

/-- Writing inside the address space keeps every entry inside it. -/
theorem Memory.write_inSpace {m : Memory} {x : Nat} (v : Byte) (hx : x < memSize) (h : Memory.inSpace m) :
    Memory.inSpace (Memory.write m x v) := by
  intro c hc
  rcases Memory.mem_write hc with hc | ⟨rfl, -⟩
  · exact h c hc
  · exact hx

/-- A read after a write to the same address gives the value written. -/
theorem Memory.read_write_same {m : Memory} (x : Nat) (v : Byte) (h : Memory.wf m) :
    Memory.read (Memory.write m x v) x = v := by
  have hp := h.1
  clear h
  induction m with
  | nil =>
    simp only [Memory.write]
    split <;> simp_all [Memory.read_cons]
  | cons d m ih =>
    obtain ⟨a, b⟩ := d
    rw [List.pairwise_cons] at hp
    have low : x ≤ a → Memory.read m x = Memory.unlisted := fun hxa =>
      Memory.read_of_lt m x fun c hc => by
        have := hp.1 c hc
        simp only at this
        omega
    simp only [Memory.write]
    split
    · split
      · rw [Memory.read_cons, if_neg (by simp only; omega), low (by omega)]
        simp_all
      · simp [Memory.read_cons]
    · split
      · split
        · rw [low (by omega)]
          simp_all
        · simp [Memory.read_cons]
      · rw [Memory.read_cons, if_neg (by simp only; omega)]
        exact ih hp.2

/-- A write leaves every other address alone. -/
theorem Memory.read_write_other (m : Memory) {x y : Nat} (v : Byte) (h : y ≠ x) :
    Memory.read (Memory.write m x v) y = Memory.read m y := by
  induction m with
  | nil =>
    simp only [Memory.write]
    split
    · rfl
    · simp [Memory.read_cons, Ne.symm h]
  | cons d m ih =>
    obtain ⟨a, b⟩ := d
    simp only [Memory.write]
    split
    · split
      · rfl
      · rw [Memory.read_cons, if_neg (by simpa using Ne.symm h)]
    · split
      · rename_i hxa
        subst hxa
        split
        · rw [Memory.read_cons, if_neg (by simpa using Ne.symm h)]
        · rw [Memory.read_cons, Memory.read_cons, if_neg (by simpa using Ne.symm h),
            if_neg (by simpa using Ne.symm h)]
      · rw [Memory.read_cons, Memory.read_cons, ih]

/-! ### Byte strings -/

@[simp] theorem Memory.readBytes_length (m : Memory) (a n : Nat) : (Memory.readBytes m a n).length = n := by
  simp [Memory.readBytes]

theorem Memory.readBytes_getD (m : Memory) (a n k : Nat) (v : Byte) (h : k < n) :
    (Memory.readBytes m a n).getD k v = Memory.read m (a + k) := by
  simp [Memory.readBytes, h]

theorem Memory.writeBytes_wf {m : Memory} (a : Nat) (bs : List Byte) (h : Memory.wf m) :
    Memory.wf (Memory.writeBytes m a bs) := by
  induction bs generalizing m a with
  | nil => exact h
  | cons b bs ih => exact ih _ (Memory.write_wf a b h)

theorem Memory.writeBytes_inSpace {m : Memory} (a : Nat) (bs : List Byte) (hb : bs = [] ∨ a + bs.length ≤ memSize)
    (h : Memory.inSpace m) : Memory.inSpace (Memory.writeBytes m a bs) := by
  induction bs generalizing m a with
  | nil => exact h
  | cons b bs ih =>
    have hb : a + (bs.length + 1) ≤ memSize := by simpa using hb
    exact ih (a + 1) (.inr (by omega)) (Memory.write_inSpace b (by omega) h)

/-- A byte outside the written range reads as before. -/
theorem Memory.read_writeBytes_outside (m : Memory) (a x : Nat) (bs : List Byte)
    (h : x < a ∨ a + bs.length ≤ x) :
    Memory.read (Memory.writeBytes m a bs) x = Memory.read m x := by
  induction bs generalizing m a with
  | nil => rfl
  | cons b bs ih =>
    have h : x < a ∨ a + (bs.length + 1) ≤ x := by simpa using h
    rw [Memory.writeBytes, ih _ _ (by omega), Memory.read_write_other m b (by omega)]

/-- A byte inside the written range reads as written. -/
theorem Memory.read_writeBytes_inside {m : Memory} (a k : Nat) (bs : List Byte) (v : Byte) (hm : Memory.wf m)
    (hk : k < bs.length) : Memory.read (Memory.writeBytes m a bs) (a + k) = bs.getD k v := by
  induction bs generalizing m a k with
  | nil => simp at hk
  | cons b bs ih =>
    cases k with
    | zero =>
      rw [Memory.writeBytes, Memory.read_writeBytes_outside _ _ _ _ (by omega)]
      simpa using Memory.read_write_same a b hm
    | succ k =>
      have := ih (a := a + 1) (k := k) (Memory.write_wf a b hm) (by simpa using hk)
      rw [Memory.writeBytes, show a + (k + 1) = a + 1 + k by omega, this]
      simp

/-! ### Mapped ranges -/

theorem Platform.allMapped_iff (p : Platform) (a n : Nat) :
    Platform.allMapped p a n = true ↔ ∀ k < n, Platform.mapped p (a + k) = true := by
  simp [Platform.allMapped]

theorem Platform.mapped_lt {p : Platform} {x : Nat} (h : Platform.mapped p x = true) : x < memSize := by
  simp only [Platform.mapped, Bool.and_eq_true, decide_eq_true_eq] at h
  exact h.1

theorem Platform.allMapped_le {p : Platform} {a n : Nat} (hn : 0 < n) (h : Platform.allMapped p a n = true) :
    a + n ≤ memSize := by
  have := Platform.mapped_lt ((Platform.allMapped_iff p a n).1 h (n - 1) (by omega))
  omega

end Sys2Proof.Machine
end

