-- ==== Sys2Proof/Laws/State.lean ====
section
/-!
SUPPORT. One lemma per field per update of State, each true by definition, so that no proof unfolds a record update.
-/

namespace Sys2Proof.Machine

variable (s : State)

/-! ### raiseFatal -/

@[simp] theorem State.raiseFatal_keyValid : s.raiseFatal.keyValid = s.keyValid := rfl
@[simp] theorem State.raiseFatal_rk : s.raiseFatal.rk = s.rk := rfl
@[simp] theorem State.raiseFatal_fatal : s.raiseFatal.fatal = true := rfl
@[simp] theorem State.raiseFatal_eng : s.raiseFatal.eng = s.eng := rfl
@[simp] theorem State.raiseFatal_port : s.raiseFatal.port = s.port := rfl
@[simp] theorem State.raiseFatal_ctrw : s.raiseFatal.ctrw = s.ctrw := rfl
@[simp] theorem State.raiseFatal_idx : s.raiseFatal.idx = s.idx := rfl
@[simp] theorem State.raiseFatal_ksb : s.raiseFatal.ksb = s.ksb := rfl
@[simp] theorem State.raiseFatal_q : s.raiseFatal.q = s.q := rfl
@[simp] theorem State.raiseFatal_nlog : s.raiseFatal.nlog = s.nlog := rfl
@[simp] theorem State.raiseFatal_mem : s.raiseFatal.mem = s.mem := rfl
@[simp] theorem State.raiseFatal_plat : s.raiseFatal.plat = s.plat := rfl
@[simp] theorem State.raiseFatal_rsps : s.raiseFatal.rsps = s.rsps := rfl
@[simp] theorem State.raiseFatal_reads : s.raiseFatal.reads = s.reads := rfl
@[simp] theorem State.raiseFatal_prog : s.raiseFatal.prog = s.prog := rfl
@[simp] theorem State.raiseFatal_turns : s.raiseFatal.turns = s.turns := rfl
@[simp] theorem State.raiseFatal_draws : s.raiseFatal.draws = s.draws := rfl

/-! ### present -/

@[simp] theorem State.present_keyValid (cmd : Desc) : (s.present cmd).keyValid = s.keyValid := rfl
@[simp] theorem State.present_rk (cmd : Desc) : (s.present cmd).rk = s.rk := rfl
@[simp] theorem State.present_fatal (cmd : Desc) : (s.present cmd).fatal = s.fatal := rfl
@[simp] theorem State.present_eng (cmd : Desc) : (s.present cmd).eng = s.eng := rfl
@[simp] theorem State.present_port (cmd : Desc) : (s.present cmd).port = .held cmd := rfl
@[simp] theorem State.present_ctrw (cmd : Desc) : (s.present cmd).ctrw = s.ctrw := rfl
@[simp] theorem State.present_idx (cmd : Desc) : (s.present cmd).idx = s.idx := rfl
@[simp] theorem State.present_ksb (cmd : Desc) : (s.present cmd).ksb = s.ksb := rfl
@[simp] theorem State.present_q (cmd : Desc) : (s.present cmd).q = s.q := rfl
@[simp] theorem State.present_nlog (cmd : Desc) : (s.present cmd).nlog = s.nlog := rfl
@[simp] theorem State.present_mem (cmd : Desc) : (s.present cmd).mem = s.mem := rfl
@[simp] theorem State.present_plat (cmd : Desc) : (s.present cmd).plat = s.plat := rfl
@[simp] theorem State.present_rsps (cmd : Desc) : (s.present cmd).rsps = s.rsps := rfl
@[simp] theorem State.present_reads (cmd : Desc) : (s.present cmd).reads = s.reads := rfl
@[simp] theorem State.present_prog (cmd : Desc) : (s.present cmd).prog = s.prog := rfl
@[simp] theorem State.present_turns (cmd : Desc) : (s.present cmd).turns = s.turns := rfl
@[simp] theorem State.present_draws (cmd : Desc) : (s.present cmd).draws = s.draws := rfl

/-! ### respond -/

@[simp] theorem State.respond_keyValid (st : Status) (tk : Word) : (s.respond st tk).keyValid = s.keyValid := rfl
@[simp] theorem State.respond_rk (st : Status) (tk : Word) : (s.respond st tk).rk = s.rk := rfl
@[simp] theorem State.respond_fatal (st : Status) (tk : Word) : (s.respond st tk).fatal = s.fatal := rfl
@[simp] theorem State.respond_eng (st : Status) (tk : Word) : (s.respond st tk).eng = s.eng := rfl
@[simp] theorem State.respond_port (st : Status) (tk : Word) : (s.respond st tk).port = .free := rfl
@[simp] theorem State.respond_ctrw (st : Status) (tk : Word) : (s.respond st tk).ctrw = s.ctrw := rfl
@[simp] theorem State.respond_idx (st : Status) (tk : Word) : (s.respond st tk).idx = s.idx := rfl
@[simp] theorem State.respond_ksb (st : Status) (tk : Word) : (s.respond st tk).ksb = s.ksb := rfl
@[simp] theorem State.respond_q (st : Status) (tk : Word) : (s.respond st tk).q = s.q := rfl
@[simp] theorem State.respond_nlog (st : Status) (tk : Word) : (s.respond st tk).nlog = s.nlog := rfl
@[simp] theorem State.respond_mem (st : Status) (tk : Word) : (s.respond st tk).mem = s.mem := rfl
@[simp] theorem State.respond_plat (st : Status) (tk : Word) : (s.respond st tk).plat = s.plat := rfl
@[simp] theorem State.respond_rsps (st : Status) (tk : Word) : (s.respond st tk).rsps = s.rsps ++ [{ status := st, token := tk }] := rfl
@[simp] theorem State.respond_reads (st : Status) (tk : Word) : (s.respond st tk).reads = s.reads := rfl
@[simp] theorem State.respond_prog (st : Status) (tk : Word) : (s.respond st tk).prog = s.prog := rfl
@[simp] theorem State.respond_turns (st : Status) (tk : Word) : (s.respond st tk).turns = s.turns := rfl
@[simp] theorem State.respond_draws (st : Status) (tk : Word) : (s.respond st tk).draws = s.draws := rfl

/-! ### notify -/

@[simp] theorem State.notify_keyValid (n : Ntf) : (s.notify n).keyValid = s.keyValid := rfl
@[simp] theorem State.notify_rk (n : Ntf) : (s.notify n).rk = s.rk := rfl
@[simp] theorem State.notify_fatal (n : Ntf) : (s.notify n).fatal = s.fatal := rfl
@[simp] theorem State.notify_eng (n : Ntf) : (s.notify n).eng = s.eng := rfl
@[simp] theorem State.notify_port (n : Ntf) : (s.notify n).port = s.port := rfl
@[simp] theorem State.notify_ctrw (n : Ntf) : (s.notify n).ctrw = s.ctrw := rfl
@[simp] theorem State.notify_idx (n : Ntf) : (s.notify n).idx = s.idx := rfl
@[simp] theorem State.notify_ksb (n : Ntf) : (s.notify n).ksb = s.ksb := rfl
@[simp] theorem State.notify_q (n : Ntf) : (s.notify n).q = s.q := rfl
@[simp] theorem State.notify_nlog (n : Ntf) : (s.notify n).nlog = s.nlog ++ [n] := rfl
@[simp] theorem State.notify_mem (n : Ntf) : (s.notify n).mem = s.mem := rfl
@[simp] theorem State.notify_plat (n : Ntf) : (s.notify n).plat = s.plat := rfl
@[simp] theorem State.notify_rsps (n : Ntf) : (s.notify n).rsps = s.rsps := rfl
@[simp] theorem State.notify_reads (n : Ntf) : (s.notify n).reads = s.reads := rfl
@[simp] theorem State.notify_prog (n : Ntf) : (s.notify n).prog = s.prog := rfl
@[simp] theorem State.notify_turns (n : Ntf) : (s.notify n).turns = s.turns := rfl
@[simp] theorem State.notify_draws (n : Ntf) : (s.notify n).draws = s.draws := rfl

/-! ### installKey -/

@[simp] theorem State.installKey_keyValid (rk : RoundKeys) : (s.installKey rk).keyValid = true := rfl
@[simp] theorem State.installKey_rk (rk : RoundKeys) : (s.installKey rk).rk = rk := rfl
@[simp] theorem State.installKey_fatal (rk : RoundKeys) : (s.installKey rk).fatal = s.fatal := rfl
@[simp] theorem State.installKey_eng (rk : RoundKeys) : (s.installKey rk).eng = s.eng := rfl
@[simp] theorem State.installKey_port (rk : RoundKeys) : (s.installKey rk).port = s.port := rfl
@[simp] theorem State.installKey_ctrw (rk : RoundKeys) : (s.installKey rk).ctrw = s.ctrw := rfl
@[simp] theorem State.installKey_idx (rk : RoundKeys) : (s.installKey rk).idx = s.idx := rfl
@[simp] theorem State.installKey_ksb (rk : RoundKeys) : (s.installKey rk).ksb = s.ksb := rfl
@[simp] theorem State.installKey_q (rk : RoundKeys) : (s.installKey rk).q = s.q := rfl
@[simp] theorem State.installKey_nlog (rk : RoundKeys) : (s.installKey rk).nlog = s.nlog := rfl
@[simp] theorem State.installKey_mem (rk : RoundKeys) : (s.installKey rk).mem = s.mem := rfl
@[simp] theorem State.installKey_plat (rk : RoundKeys) : (s.installKey rk).plat = s.plat := rfl
@[simp] theorem State.installKey_rsps (rk : RoundKeys) : (s.installKey rk).rsps = s.rsps := rfl
@[simp] theorem State.installKey_reads (rk : RoundKeys) : (s.installKey rk).reads = s.reads := rfl
@[simp] theorem State.installKey_prog (rk : RoundKeys) : (s.installKey rk).prog = s.prog := rfl
@[simp] theorem State.installKey_turns (rk : RoundKeys) : (s.installKey rk).turns = s.turns := rfl
@[simp] theorem State.installKey_draws (rk : RoundKeys) : (s.installKey rk).draws = s.draws := rfl

/-! ### enqueue -/

@[simp] theorem State.enqueue_keyValid (p : Pending) : (s.enqueue p).keyValid = s.keyValid := rfl
@[simp] theorem State.enqueue_rk (p : Pending) : (s.enqueue p).rk = s.rk := rfl
@[simp] theorem State.enqueue_fatal (p : Pending) : (s.enqueue p).fatal = s.fatal := rfl
@[simp] theorem State.enqueue_eng (p : Pending) : (s.enqueue p).eng = s.eng := rfl
@[simp] theorem State.enqueue_port (p : Pending) : (s.enqueue p).port = s.port := rfl
@[simp] theorem State.enqueue_ctrw (p : Pending) : (s.enqueue p).ctrw = s.ctrw := rfl
@[simp] theorem State.enqueue_idx (p : Pending) : (s.enqueue p).idx = s.idx := rfl
@[simp] theorem State.enqueue_ksb (p : Pending) : (s.enqueue p).ksb = s.ksb := rfl
@[simp] theorem State.enqueue_q (p : Pending) : (s.enqueue p).q = s.q ++ [p] := rfl
@[simp] theorem State.enqueue_nlog (p : Pending) : (s.enqueue p).nlog = s.nlog := rfl
@[simp] theorem State.enqueue_mem (p : Pending) : (s.enqueue p).mem = s.mem := rfl
@[simp] theorem State.enqueue_plat (p : Pending) : (s.enqueue p).plat = s.plat := rfl
@[simp] theorem State.enqueue_rsps (p : Pending) : (s.enqueue p).rsps = s.rsps := rfl
@[simp] theorem State.enqueue_reads (p : Pending) : (s.enqueue p).reads = s.reads := rfl
@[simp] theorem State.enqueue_prog (p : Pending) : (s.enqueue p).prog = s.prog := rfl
@[simp] theorem State.enqueue_turns (p : Pending) : (s.enqueue p).turns = s.turns := rfl
@[simp] theorem State.enqueue_draws (p : Pending) : (s.enqueue p).draws = s.draws := rfl

/-! ### retire -/

@[simp] theorem State.retire_keyValid : s.retire.keyValid = s.keyValid := rfl
@[simp] theorem State.retire_rk : s.retire.rk = s.rk := rfl
@[simp] theorem State.retire_fatal : s.retire.fatal = s.fatal := rfl
@[simp] theorem State.retire_eng : s.retire.eng = .idle := rfl
@[simp] theorem State.retire_port : s.retire.port = s.port := rfl
@[simp] theorem State.retire_ctrw : s.retire.ctrw = s.ctrw := rfl
@[simp] theorem State.retire_idx : s.retire.idx = s.idx := rfl
@[simp] theorem State.retire_ksb : s.retire.ksb = s.ksb := rfl
@[simp] theorem State.retire_q : s.retire.q = s.q.tail := rfl
@[simp] theorem State.retire_nlog : s.retire.nlog = s.nlog := rfl
@[simp] theorem State.retire_mem : s.retire.mem = s.mem := rfl
@[simp] theorem State.retire_plat : s.retire.plat = s.plat := rfl
@[simp] theorem State.retire_rsps : s.retire.rsps = s.rsps := rfl
@[simp] theorem State.retire_reads : s.retire.reads = s.reads := rfl
@[simp] theorem State.retire_prog : s.retire.prog = s.prog := rfl
@[simp] theorem State.retire_turns : s.retire.turns = s.turns := rfl
@[simp] theorem State.retire_draws : s.retire.draws = s.draws := rfl

/-! ### setRun -/

@[simp] theorem State.setRun_keyValid : s.setRun.keyValid = s.keyValid := rfl
@[simp] theorem State.setRun_rk : s.setRun.rk = s.rk := rfl
@[simp] theorem State.setRun_fatal : s.setRun.fatal = s.fatal := rfl
@[simp] theorem State.setRun_eng : s.setRun.eng = .run := rfl
@[simp] theorem State.setRun_port : s.setRun.port = s.port := rfl
@[simp] theorem State.setRun_ctrw : s.setRun.ctrw = s.ctrw := rfl
@[simp] theorem State.setRun_idx : s.setRun.idx = s.idx := rfl
@[simp] theorem State.setRun_ksb : s.setRun.ksb = s.ksb := rfl
@[simp] theorem State.setRun_q : s.setRun.q = s.q := rfl
@[simp] theorem State.setRun_nlog : s.setRun.nlog = s.nlog := rfl
@[simp] theorem State.setRun_mem : s.setRun.mem = s.mem := rfl
@[simp] theorem State.setRun_plat : s.setRun.plat = s.plat := rfl
@[simp] theorem State.setRun_rsps : s.setRun.rsps = s.rsps := rfl
@[simp] theorem State.setRun_reads : s.setRun.reads = s.reads := rfl
@[simp] theorem State.setRun_prog : s.setRun.prog = s.prog := rfl
@[simp] theorem State.setRun_turns : s.setRun.turns = s.turns := rfl
@[simp] theorem State.setRun_draws : s.setRun.draws = s.draws := rfl

/-! ### setMem -/

@[simp] theorem State.setMem_keyValid (m : Memory) : (s.setMem m).keyValid = s.keyValid := rfl
@[simp] theorem State.setMem_rk (m : Memory) : (s.setMem m).rk = s.rk := rfl
@[simp] theorem State.setMem_fatal (m : Memory) : (s.setMem m).fatal = s.fatal := rfl
@[simp] theorem State.setMem_eng (m : Memory) : (s.setMem m).eng = s.eng := rfl
@[simp] theorem State.setMem_port (m : Memory) : (s.setMem m).port = s.port := rfl
@[simp] theorem State.setMem_ctrw (m : Memory) : (s.setMem m).ctrw = s.ctrw := rfl
@[simp] theorem State.setMem_idx (m : Memory) : (s.setMem m).idx = s.idx := rfl
@[simp] theorem State.setMem_ksb (m : Memory) : (s.setMem m).ksb = s.ksb := rfl
@[simp] theorem State.setMem_q (m : Memory) : (s.setMem m).q = s.q := rfl
@[simp] theorem State.setMem_nlog (m : Memory) : (s.setMem m).nlog = s.nlog := rfl
@[simp] theorem State.setMem_mem (m : Memory) : (s.setMem m).mem = m := rfl
@[simp] theorem State.setMem_plat (m : Memory) : (s.setMem m).plat = s.plat := rfl
@[simp] theorem State.setMem_rsps (m : Memory) : (s.setMem m).rsps = s.rsps := rfl
@[simp] theorem State.setMem_reads (m : Memory) : (s.setMem m).reads = s.reads := rfl
@[simp] theorem State.setMem_prog (m : Memory) : (s.setMem m).prog = s.prog := rfl
@[simp] theorem State.setMem_turns (m : Memory) : (s.setMem m).turns = s.turns := rfl
@[simp] theorem State.setMem_draws (m : Memory) : (s.setMem m).draws = s.draws := rfl

/-! ### setCtrw -/

@[simp] theorem State.setCtrw_keyValid (c : BitVec 128) : (s.setCtrw c).keyValid = s.keyValid := rfl
@[simp] theorem State.setCtrw_rk (c : BitVec 128) : (s.setCtrw c).rk = s.rk := rfl
@[simp] theorem State.setCtrw_fatal (c : BitVec 128) : (s.setCtrw c).fatal = s.fatal := rfl
@[simp] theorem State.setCtrw_eng (c : BitVec 128) : (s.setCtrw c).eng = s.eng := rfl
@[simp] theorem State.setCtrw_port (c : BitVec 128) : (s.setCtrw c).port = s.port := rfl
@[simp] theorem State.setCtrw_ctrw (c : BitVec 128) : (s.setCtrw c).ctrw = c := rfl
@[simp] theorem State.setCtrw_idx (c : BitVec 128) : (s.setCtrw c).idx = s.idx := rfl
@[simp] theorem State.setCtrw_ksb (c : BitVec 128) : (s.setCtrw c).ksb = s.ksb := rfl
@[simp] theorem State.setCtrw_q (c : BitVec 128) : (s.setCtrw c).q = s.q := rfl
@[simp] theorem State.setCtrw_nlog (c : BitVec 128) : (s.setCtrw c).nlog = s.nlog := rfl
@[simp] theorem State.setCtrw_mem (c : BitVec 128) : (s.setCtrw c).mem = s.mem := rfl
@[simp] theorem State.setCtrw_plat (c : BitVec 128) : (s.setCtrw c).plat = s.plat := rfl
@[simp] theorem State.setCtrw_rsps (c : BitVec 128) : (s.setCtrw c).rsps = s.rsps := rfl
@[simp] theorem State.setCtrw_reads (c : BitVec 128) : (s.setCtrw c).reads = s.reads := rfl
@[simp] theorem State.setCtrw_prog (c : BitVec 128) : (s.setCtrw c).prog = s.prog := rfl
@[simp] theorem State.setCtrw_turns (c : BitVec 128) : (s.setCtrw c).turns = s.turns := rfl
@[simp] theorem State.setCtrw_draws (c : BitVec 128) : (s.setCtrw c).draws = s.draws := rfl

/-! ### setIdx -/

@[simp] theorem State.setIdx_keyValid (i : Nat) : (s.setIdx i).keyValid = s.keyValid := rfl
@[simp] theorem State.setIdx_rk (i : Nat) : (s.setIdx i).rk = s.rk := rfl
@[simp] theorem State.setIdx_fatal (i : Nat) : (s.setIdx i).fatal = s.fatal := rfl
@[simp] theorem State.setIdx_eng (i : Nat) : (s.setIdx i).eng = s.eng := rfl
@[simp] theorem State.setIdx_port (i : Nat) : (s.setIdx i).port = s.port := rfl
@[simp] theorem State.setIdx_ctrw (i : Nat) : (s.setIdx i).ctrw = s.ctrw := rfl
@[simp] theorem State.setIdx_idx (i : Nat) : (s.setIdx i).idx = i := rfl
@[simp] theorem State.setIdx_ksb (i : Nat) : (s.setIdx i).ksb = s.ksb := rfl
@[simp] theorem State.setIdx_q (i : Nat) : (s.setIdx i).q = s.q := rfl
@[simp] theorem State.setIdx_nlog (i : Nat) : (s.setIdx i).nlog = s.nlog := rfl
@[simp] theorem State.setIdx_mem (i : Nat) : (s.setIdx i).mem = s.mem := rfl
@[simp] theorem State.setIdx_plat (i : Nat) : (s.setIdx i).plat = s.plat := rfl
@[simp] theorem State.setIdx_rsps (i : Nat) : (s.setIdx i).rsps = s.rsps := rfl
@[simp] theorem State.setIdx_reads (i : Nat) : (s.setIdx i).reads = s.reads := rfl
@[simp] theorem State.setIdx_prog (i : Nat) : (s.setIdx i).prog = s.prog := rfl
@[simp] theorem State.setIdx_turns (i : Nat) : (s.setIdx i).turns = s.turns := rfl
@[simp] theorem State.setIdx_draws (i : Nat) : (s.setIdx i).draws = s.draws := rfl

/-! ### setKsb -/

@[simp] theorem State.setKsb_keyValid (k : Block) : (s.setKsb k).keyValid = s.keyValid := rfl
@[simp] theorem State.setKsb_rk (k : Block) : (s.setKsb k).rk = s.rk := rfl
@[simp] theorem State.setKsb_fatal (k : Block) : (s.setKsb k).fatal = s.fatal := rfl
@[simp] theorem State.setKsb_eng (k : Block) : (s.setKsb k).eng = s.eng := rfl
@[simp] theorem State.setKsb_port (k : Block) : (s.setKsb k).port = s.port := rfl
@[simp] theorem State.setKsb_ctrw (k : Block) : (s.setKsb k).ctrw = s.ctrw := rfl
@[simp] theorem State.setKsb_idx (k : Block) : (s.setKsb k).idx = s.idx := rfl
@[simp] theorem State.setKsb_ksb (k : Block) : (s.setKsb k).ksb = k := rfl
@[simp] theorem State.setKsb_q (k : Block) : (s.setKsb k).q = s.q := rfl
@[simp] theorem State.setKsb_nlog (k : Block) : (s.setKsb k).nlog = s.nlog := rfl
@[simp] theorem State.setKsb_mem (k : Block) : (s.setKsb k).mem = s.mem := rfl
@[simp] theorem State.setKsb_plat (k : Block) : (s.setKsb k).plat = s.plat := rfl
@[simp] theorem State.setKsb_rsps (k : Block) : (s.setKsb k).rsps = s.rsps := rfl
@[simp] theorem State.setKsb_reads (k : Block) : (s.setKsb k).reads = s.reads := rfl
@[simp] theorem State.setKsb_prog (k : Block) : (s.setKsb k).prog = s.prog := rfl
@[simp] theorem State.setKsb_turns (k : Block) : (s.setKsb k).turns = s.turns := rfl
@[simp] theorem State.setKsb_draws (k : Block) : (s.setKsb k).draws = s.draws := rfl

/-! ### logRead -/

@[simp] theorem State.logRead_keyValid (r : HostRead) (n : Nat) : (s.logRead r n).keyValid = s.keyValid := rfl
@[simp] theorem State.logRead_rk (r : HostRead) (n : Nat) : (s.logRead r n).rk = s.rk := rfl
@[simp] theorem State.logRead_fatal (r : HostRead) (n : Nat) : (s.logRead r n).fatal = s.fatal := rfl
@[simp] theorem State.logRead_eng (r : HostRead) (n : Nat) : (s.logRead r n).eng = s.eng := rfl
@[simp] theorem State.logRead_port (r : HostRead) (n : Nat) : (s.logRead r n).port = s.port := rfl
@[simp] theorem State.logRead_ctrw (r : HostRead) (n : Nat) : (s.logRead r n).ctrw = s.ctrw := rfl
@[simp] theorem State.logRead_idx (r : HostRead) (n : Nat) : (s.logRead r n).idx = s.idx := rfl
@[simp] theorem State.logRead_ksb (r : HostRead) (n : Nat) : (s.logRead r n).ksb = s.ksb := rfl
@[simp] theorem State.logRead_q (r : HostRead) (n : Nat) : (s.logRead r n).q = s.q := rfl
@[simp] theorem State.logRead_nlog (r : HostRead) (n : Nat) : (s.logRead r n).nlog = s.nlog := rfl
@[simp] theorem State.logRead_mem (r : HostRead) (n : Nat) : (s.logRead r n).mem = s.mem := rfl
@[simp] theorem State.logRead_plat (r : HostRead) (n : Nat) : (s.logRead r n).plat = s.plat := rfl
@[simp] theorem State.logRead_rsps (r : HostRead) (n : Nat) : (s.logRead r n).rsps = s.rsps := rfl
@[simp] theorem State.logRead_reads (r : HostRead) (n : Nat) : (s.logRead r n).reads = s.reads ++ [r] := rfl
@[simp] theorem State.logRead_prog (r : HostRead) (n : Nat) : (s.logRead r n).prog = s.prog := rfl
@[simp] theorem State.logRead_turns (r : HostRead) (n : Nat) : (s.logRead r n).turns = s.turns := rfl
@[simp] theorem State.logRead_draws (r : HostRead) (n : Nat) : (s.logRead r n).draws = s.draws + n := rfl

/-! ### setProg -/

@[simp] theorem State.setProg_keyValid (acts : List HostAct) : (s.setProg acts).keyValid = s.keyValid := rfl
@[simp] theorem State.setProg_rk (acts : List HostAct) : (s.setProg acts).rk = s.rk := rfl
@[simp] theorem State.setProg_fatal (acts : List HostAct) : (s.setProg acts).fatal = s.fatal := rfl
@[simp] theorem State.setProg_eng (acts : List HostAct) : (s.setProg acts).eng = s.eng := rfl
@[simp] theorem State.setProg_port (acts : List HostAct) : (s.setProg acts).port = s.port := rfl
@[simp] theorem State.setProg_ctrw (acts : List HostAct) : (s.setProg acts).ctrw = s.ctrw := rfl
@[simp] theorem State.setProg_idx (acts : List HostAct) : (s.setProg acts).idx = s.idx := rfl
@[simp] theorem State.setProg_ksb (acts : List HostAct) : (s.setProg acts).ksb = s.ksb := rfl
@[simp] theorem State.setProg_q (acts : List HostAct) : (s.setProg acts).q = s.q := rfl
@[simp] theorem State.setProg_nlog (acts : List HostAct) : (s.setProg acts).nlog = s.nlog := rfl
@[simp] theorem State.setProg_mem (acts : List HostAct) : (s.setProg acts).mem = s.mem := rfl
@[simp] theorem State.setProg_plat (acts : List HostAct) : (s.setProg acts).plat = s.plat := rfl
@[simp] theorem State.setProg_rsps (acts : List HostAct) : (s.setProg acts).rsps = s.rsps := rfl
@[simp] theorem State.setProg_reads (acts : List HostAct) : (s.setProg acts).reads = s.reads := rfl
@[simp] theorem State.setProg_prog (acts : List HostAct) : (s.setProg acts).prog = acts := rfl
@[simp] theorem State.setProg_turns (acts : List HostAct) : (s.setProg acts).turns = s.turns := rfl
@[simp] theorem State.setProg_draws (acts : List HostAct) : (s.setProg acts).draws = s.draws := rfl

/-! ### setTurns -/

@[simp] theorem State.setTurns_keyValid (ts : List Turn) : (s.setTurns ts).keyValid = s.keyValid := rfl
@[simp] theorem State.setTurns_rk (ts : List Turn) : (s.setTurns ts).rk = s.rk := rfl
@[simp] theorem State.setTurns_fatal (ts : List Turn) : (s.setTurns ts).fatal = s.fatal := rfl
@[simp] theorem State.setTurns_eng (ts : List Turn) : (s.setTurns ts).eng = s.eng := rfl
@[simp] theorem State.setTurns_port (ts : List Turn) : (s.setTurns ts).port = s.port := rfl
@[simp] theorem State.setTurns_ctrw (ts : List Turn) : (s.setTurns ts).ctrw = s.ctrw := rfl
@[simp] theorem State.setTurns_idx (ts : List Turn) : (s.setTurns ts).idx = s.idx := rfl
@[simp] theorem State.setTurns_ksb (ts : List Turn) : (s.setTurns ts).ksb = s.ksb := rfl
@[simp] theorem State.setTurns_q (ts : List Turn) : (s.setTurns ts).q = s.q := rfl
@[simp] theorem State.setTurns_nlog (ts : List Turn) : (s.setTurns ts).nlog = s.nlog := rfl
@[simp] theorem State.setTurns_mem (ts : List Turn) : (s.setTurns ts).mem = s.mem := rfl
@[simp] theorem State.setTurns_plat (ts : List Turn) : (s.setTurns ts).plat = s.plat := rfl
@[simp] theorem State.setTurns_rsps (ts : List Turn) : (s.setTurns ts).rsps = s.rsps := rfl
@[simp] theorem State.setTurns_reads (ts : List Turn) : (s.setTurns ts).reads = s.reads := rfl
@[simp] theorem State.setTurns_prog (ts : List Turn) : (s.setTurns ts).prog = s.prog := rfl
@[simp] theorem State.setTurns_turns (ts : List Turn) : (s.setTurns ts).turns = ts := rfl
@[simp] theorem State.setTurns_draws (ts : List Turn) : (s.setTurns ts).draws = s.draws := rfl

/-! ### releaseScratch -/

@[simp] theorem State.releaseScratch_keyValid : s.releaseScratch.keyValid = s.keyValid := rfl
@[simp] theorem State.releaseScratch_rk : s.releaseScratch.rk = s.rk := rfl
@[simp] theorem State.releaseScratch_fatal : s.releaseScratch.fatal = s.fatal := rfl
@[simp] theorem State.releaseScratch_eng : s.releaseScratch.eng = s.eng := rfl
@[simp] theorem State.releaseScratch_port : s.releaseScratch.port = s.port := rfl
@[simp] theorem State.releaseScratch_ctrw : s.releaseScratch.ctrw = Config.freeCtrw s.draws := rfl
@[simp] theorem State.releaseScratch_idx : s.releaseScratch.idx = (Config.freeIdx s.draws).val := rfl
@[simp] theorem State.releaseScratch_ksb : s.releaseScratch.ksb = Config.freeKsb s.draws := rfl
@[simp] theorem State.releaseScratch_q : s.releaseScratch.q = s.q := rfl
@[simp] theorem State.releaseScratch_nlog : s.releaseScratch.nlog = s.nlog := rfl
@[simp] theorem State.releaseScratch_mem : s.releaseScratch.mem = s.mem := rfl
@[simp] theorem State.releaseScratch_plat : s.releaseScratch.plat = s.plat := rfl
@[simp] theorem State.releaseScratch_rsps : s.releaseScratch.rsps = s.rsps := rfl
@[simp] theorem State.releaseScratch_reads : s.releaseScratch.reads = s.reads := rfl
@[simp] theorem State.releaseScratch_prog : s.releaseScratch.prog = s.prog := rfl
@[simp] theorem State.releaseScratch_turns : s.releaseScratch.turns = s.turns := rfl
@[simp] theorem State.releaseScratch_draws : s.releaseScratch.draws = s.draws + 1 := rfl

/-- The three scratch registers and the count of draws change, nothing else; `IDX` keeps its bound (R27). -/
theorem State.releaseScratch_spec :
    s.releaseScratch =
        { s with
          ctrw := s.releaseScratch.ctrw, idx := s.releaseScratch.idx, ksb := s.releaseScratch.ksb, draws := s.draws + 1 } ∧
      s.releaseScratch.idx ≤ 268435456 :=
  ⟨rfl, Nat.lt_succ_iff.1 (Config.freeIdx s.draws).isLt⟩

/-! ### applyReset -/

@[simp] theorem State.applyReset_keyValid : s.applyReset.keyValid = false := rfl
@[simp] theorem State.applyReset_rk : s.applyReset.rk = Config.freeRk s.draws := rfl
@[simp] theorem State.applyReset_fatal : s.applyReset.fatal = false := rfl
@[simp] theorem State.applyReset_eng : s.applyReset.eng = .idle := rfl
@[simp] theorem State.applyReset_port : s.applyReset.port = .free := rfl
@[simp] theorem State.applyReset_ctrw : s.applyReset.ctrw = Config.freeCtrw s.draws := rfl
@[simp] theorem State.applyReset_idx : s.applyReset.idx = (Config.freeIdx s.draws).val := rfl
@[simp] theorem State.applyReset_ksb : s.applyReset.ksb = Config.freeKsb s.draws := rfl
@[simp] theorem State.applyReset_q : s.applyReset.q = [] := rfl
@[simp] theorem State.applyReset_nlog : s.applyReset.nlog = [] := rfl
@[simp] theorem State.applyReset_mem : s.applyReset.mem = s.mem := rfl
@[simp] theorem State.applyReset_plat : s.applyReset.plat = s.plat := rfl
@[simp] theorem State.applyReset_rsps : s.applyReset.rsps = [] := rfl
@[simp] theorem State.applyReset_reads : s.applyReset.reads = [] := rfl
@[simp] theorem State.applyReset_prog : s.applyReset.prog = s.prog := rfl
@[simp] theorem State.applyReset_turns : s.applyReset.turns = s.turns := rfl
@[simp] theorem State.applyReset_draws : s.applyReset.draws = s.draws + 1 := rfl

end Sys2Proof.Machine
end

