-- ==== Sys2Proof/Laws/Ops.lean ====
section
/-!
SUPPORT. What each shared operation can do, said once: the access primitives, the validation of a transform, the steps of
an operation on memory and their frame.
-/

namespace Sys2Proof.Machine

/-! ### The access primitives -/

theorem memRead_ok_iff {a n : Nat} {s : State} {bs : List Byte} :
    memRead a n s = .ok bs ↔ Platform.allMapped s.plat a n = true ∧ bs = Memory.readBytes s.mem a n := by
  unfold memRead
  split <;> simp_all only [Except.ok.injEq, reduceCtorEq, false_and, true_and, Bool.false_eq_true]
  exact eq_comm

theorem memRead_error_iff {a n : Nat} {s t : State} :
    memRead a n s = .error t ↔ Platform.allMapped s.plat a n = false ∧ t = s.raiseFatal := by
  unfold memRead
  split <;> simp_all only [Bool.not_eq_true, Except.error.injEq, reduceCtorEq, false_and, true_and,
    Bool.true_eq_false]
  exact eq_comm

theorem memWrite_ok_iff {a n : Nat} {bs : List Byte} {s t : State} :
    memWrite a n bs s = .ok t ↔
      Platform.allMapped s.plat a n = true ∧ t = s.setMem (Memory.writeBytes s.mem a (bs.take n)) := by
  unfold memWrite
  split <;> simp_all only [Except.ok.injEq, reduceCtorEq, false_and, true_and, Bool.false_eq_true]
  exact eq_comm

theorem memWrite_error_iff {a n : Nat} {bs : List Byte} {s t : State} :
    memWrite a n bs s = .error t ↔ Platform.allMapped s.plat a n = false ∧ t = s.raiseFatal := by
  unfold memWrite
  split <;> simp_all only [Bool.not_eq_true, Except.error.injEq, reduceCtorEq, false_and, true_and,
    Bool.true_eq_false]
  exact eq_comm

/-- A settled step always answers a next state: the one reached, or the one the fatal fault left (R175). -/
theorem settle_eq_next {r : Except State State} {t : State} :
    settle r = .next t ↔ r = .ok t ∨ r = .error t := by
  cases r <;> simp [settle]

@[simp] theorem settle_ok (s : State) : settle (.ok s) = .next s := rfl

@[simp] theorem settle_error (s : State) : settle (.error s) = .next s := rfl

theorem reject_eq (st : Status) (s : State) : reject st s = .next (s.respond st 0) := rfl

/-! ### Validation -/

/-- A transform passes checks 2 to 4 of R141 exactly so. -/
theorem validate_none_iff {p : Op} {l1 : Word} {s : State} :
    validate p l1 s = none ↔ s.keyValid = true ∧ l1 = 16 ∧ Op.regionsOk p = true := by
  unfold validate
  split
  · simp_all
  · split
    · simp_all
    · split <;> simp_all

/-- A submission passes checks 2 to 5 of R141 exactly so. -/
theorem validateAsync_none_iff {p : Op} {l1 : Word} {s : State} :
    validateAsync p l1 s = none ↔
      s.keyValid = true ∧ l1 = 16 ∧ Op.regionsOk p = true ∧ Platform.full s.plat s.q.length = false := by
  unfold validateAsync
  cases h : validate p l1 s with
  | none =>
    obtain ⟨h1, h2, h3⟩ := validate_none_iff.1 h
    simp [h1, h2, h3]
  | some st =>
    have : validate p l1 s ≠ none := by simp [h]
    rw [Ne, validate_none_iff] at this
    simp only [reduceCtorEq, false_iff]
    tauto

/-- Validation reads `KEY_VALID` alone of the state. -/
theorem validate_congr {p : Op} {l1 : Word} {s t : State} (h : s.keyValid = t.keyValid) :
    validate p l1 s = validate p l1 t := by
  simp only [validate, h]

theorem regionOk_iff {a : Word} {n : Nat} : regionOk a n = true ↔ a.toNat + n ≤ memSize := by
  simp [regionOk]

theorem regionsOk_iff {p : Op} :
    Op.regionsOk p = true ↔ p.buf.toNat + p.len.toNat ≤ memSize ∧ p.ctr.toNat + 16 ≤ memSize := by
  simp [Op.regionsOk, regionOk_iff]

theorem full_false_iff {p : Platform} {n : Nat} :
    Platform.full p n = false ↔ ∀ d, p.qdepth = some d → n < d := by
  unfold Platform.full
  split <;> simp_all

/-! ### The steps of an operation -/

/-- What the steps of operation `p` may change, and nothing else: `CTRW`, `IDX`, `KSB`, `FATAL`, and the bytes of its buffer
and, if it has any data, of its counter region. -/
structure OpFrame (p : Op) (s t : State) : Prop where
  regs : t = { s with mem := t.mem, ctrw := t.ctrw, idx := t.idx, ksb := t.ksb, fatal := t.fatal }
  outside : ∀ x, (x < p.buf.toNat ∨ p.buf.toNat + p.len.toNat ≤ x) →
    (p.len.toNat = 0 ∨ x < p.ctr.toNat ∨ p.ctr.toNat + 16 ≤ x) → Memory.read t.mem x = Memory.read s.mem x
  canonical : Memory.wf s.mem → Memory.wf t.mem
  inSpace : Memory.inSpace s.mem → Memory.inSpace t.mem

theorem OpFrame.refl (p : Op) (s : State) : OpFrame p s s := ⟨rfl, fun _ _ _ => rfl, id, id⟩

theorem OpFrame.trans {p : Op} {s t u : State} (h : OpFrame p s t) (g : OpFrame p t u) : OpFrame p s u := by
  refine ⟨?_, fun x hb hc => (g.outside x hb hc).trans (h.outside x hb hc), g.canonical ∘ h.canonical,
    g.inSpace ∘ h.inSpace⟩
  have := g.regs
  rw [h.regs] at this
  simpa using this

/-- A change of the scratch registers alone. -/
theorem OpFrame.scratch (p : Op) (s : State) (c : BitVec 128) (i : Nat) (k : Block) (f : Bool) :
    OpFrame p s { s with ctrw := c, idx := i, ksb := k, fatal := f } := ⟨rfl, fun _ _ _ => rfl, id, id⟩

/-- Writing mapped bytes inside the operation's regions. -/
theorem OpFrame.write (p : Op) (s : State) (a n : Nat) (bs : List Byte)
    (hm : Platform.allMapped s.plat a n = true)
    (hin : n = 0 ∨ (p.buf.toNat ≤ a ∧ a + n ≤ p.buf.toNat + p.len.toNat) ∨
      (0 < p.len.toNat ∧ a = p.ctr.toNat ∧ n = 16)) :
    OpFrame p s (s.setMem (Memory.writeBytes s.mem a (bs.take n))) := by
  have hl : (bs.take n).length ≤ n := by simp
  refine ⟨rfl, fun x hb hc => ?_, Memory.writeBytes_wf _ _, fun h => ?_⟩
  · rcases hin with rfl | hin | hin
    · simp [Memory.writeBytes]
    · exact Memory.read_writeBytes_outside _ _ _ _ (by omega)
    · exact Memory.read_writeBytes_outside _ _ _ _ (by omega)
  · rcases Nat.eq_zero_or_pos n with rfl | hn
    · simpa [Memory.writeBytes] using h
    · have := Platform.allMapped_le hn hm
      exact Memory.writeBytes_inSpace _ _ (.inr (by omega)) h

/-- `OpStart`, spelled out (R129). -/
theorem opStart_eq (p : Op) (s : State) :
    opStart p s =
      if p.len.toNat = 0 then .ok (s.setIdx 0)
      else if Platform.allMapped s.plat p.ctr.toNat 16 then
        .ok ((s.setCtrw (be128 (Memory.readBytes s.mem p.ctr.toNat 16))).setIdx 0)
      else .error s.raiseFatal := by
  unfold opStart memRead
  rcases Nat.eq_zero_or_pos p.len.toNat with h | h
  · simp [h]
  · rw [if_pos h, if_neg (show ¬ p.len.toNat = 0 by omega)]
    split <;> rfl

/-- The number of bytes of chunk `i` (R121). -/
def chunkBytes (p : Op) (i : Nat) : Nat := min 16 (p.len.toNat - 16 * i)

/-- The first address of chunk `i` (R121). -/
def chunkAddr (p : Op) (i : Nat) : Nat := p.buf.toNat + 16 * i

/-- `OpChunk`, spelled out (R130). -/
theorem opChunk_eq (p : Op) (s : State) :
    opChunk p s =
      if Platform.allMapped s.plat (chunkAddr p s.idx) (chunkBytes p s.idx) then
        .ok { s with
          ksb := keystream s.rk s.ctrw
          mem := Memory.writeBytes s.mem (chunkAddr p s.idx)
            (xorBytes (Memory.readBytes s.mem (chunkAddr p s.idx) (chunkBytes p s.idx))
              (keystream s.rk s.ctrw).toList)
          ctrw := inc128 s.ctrw
          idx := s.idx + 1 }
      else .error { s with ksb := keystream s.rk s.ctrw, fatal := true } := by
  unfold opChunk chunkAddr chunkBytes
  dsimp only
  generalize keystream s.rk s.ctrw = ks
  generalize p.buf.toNat + 16 * s.idx = a
  generalize min 16 (p.len.toNat - 16 * s.idx) = m
  by_cases h : Platform.allMapped s.plat a m = true
  · have hr : memRead a m (s.setKsb ks) = .ok (Memory.readBytes s.mem a m) := memRead_ok_iff.2 ⟨h, rfl⟩
    have hw : memWrite a m (xorBytes (Memory.readBytes s.mem a m) ks.toList) (s.setKsb ks) =
        .ok ((s.setKsb ks).setMem
          (Memory.writeBytes s.mem a (xorBytes (Memory.readBytes s.mem a m) ks.toList))) :=
      memWrite_ok_iff.2 ⟨h, by rw [List.take_of_length_le (by simp [xorBytes])]; rfl⟩
    simp only [hr, hw, bind, Except.bind, pure, Except.pure]
    rw [if_pos h]
    rfl
  · have hr : memRead a m (s.setKsb ks) = .error (s.setKsb ks).raiseFatal :=
      memRead_error_iff.2 ⟨Bool.not_eq_true _ ▸ h, rfl⟩
    simp only [hr, bind, Except.bind]
    rw [if_neg h]
    rfl

/-- `OpFinish`, spelled out (R131). -/
theorem opFinish_eq (p : Op) (s : State) :
    opFinish p s =
      if p.len.toNat = 0 then .ok s
      else if Platform.allMapped s.plat p.ctr.toNat 16 then
        .ok (s.setMem (Memory.writeBytes s.mem p.ctr.toNat (bytes128 s.ctrw).toList))
      else .error s.raiseFatal := by
  unfold opFinish memWrite
  rcases Nat.eq_zero_or_pos p.len.toNat with h | h
  · simp [h]
  · rw [if_pos h, if_neg (show ¬ p.len.toNat = 0 by omega), List.take_of_length_le (by simp)]

theorem opStart_ok {p : Op} {s t : State} (h : opStart p s = .ok t) :
    OpFrame p s t ∧ t.fatal = s.fatal ∧ t.idx = 0 := by
  rw [opStart_eq] at h
  split at h
  · cases h
    exact ⟨OpFrame.scratch p s s.ctrw 0 s.ksb s.fatal, rfl, rfl⟩
  · split at h
    · cases h
      exact ⟨OpFrame.scratch p s _ 0 s.ksb s.fatal, rfl, rfl⟩
    · cases h

theorem opStart_error {p : Op} {s t : State} (h : opStart p s = .error t) : t = s.raiseFatal := by
  rw [opStart_eq] at h
  split at h
  · cases h
  · split at h
    · cases h
    · cases h
      rfl

theorem opChunk_ok {p : Op} {s t : State} (h : opChunk p s = .ok t) :
    OpFrame p s t ∧ t.fatal = s.fatal ∧ t.idx = s.idx + 1 := by
  rw [opChunk_eq] at h
  split at h
  · rename_i hm
    cases h
    refine ⟨OpFrame.trans (t := s.setMem (Memory.writeBytes s.mem (chunkAddr p s.idx)
      ((xorBytes (Memory.readBytes s.mem (chunkAddr p s.idx) (chunkBytes p s.idx))
        (keystream s.rk s.ctrw).toList).take (chunkBytes p s.idx)))) (OpFrame.write p s _ _ _ hm ?_) ?_, rfl, rfl⟩
    · simp only [chunkAddr, chunkBytes]
      omega
    · rw [List.take_of_length_le (by simp [xorBytes])]
      exact OpFrame.scratch p _ _ _ _ s.fatal
  · cases h

theorem opChunk_error {p : Op} {s t : State} (h : opChunk p s = .error t) :
    t = { s with ksb := t.ksb, fatal := true } := by
  rw [opChunk_eq] at h
  split at h
  · cases h
  · cases h
    rfl

theorem State.setMem_eta (s : State) (m : Memory) : s.setMem m = { s with mem := (s.setMem m).mem } := rfl

theorem opFinish_ok {p : Op} {s t : State} (h : opFinish p s = .ok t) :
    OpFrame p s t ∧ t = { s with mem := t.mem } := by
  rw [opFinish_eq] at h
  split at h
  · cases h
    exact ⟨OpFrame.refl p s, rfl⟩
  · split at h
    · rename_i h0 hm
      obtain rfl := Except.ok.inj h
      have := OpFrame.write p s p.ctr.toNat 16 (bytes128 s.ctrw).toList hm (.inr (.inr ⟨by omega, rfl, rfl⟩))
      rw [List.take_of_length_le (by simp)] at this
      exact ⟨this, State.setMem_eta s _⟩
    · cases h

theorem opFinish_error {p : Op} {s t : State} (h : opFinish p s = .error t) : t = s.raiseFatal := by
  rw [opFinish_eq] at h
  split at h
  · cases h
  · split at h
    · cases h
    · cases h
      rfl

theorem opChunks_zero (p : Op) (s : State) : opChunks p 0 s = .ok s := rfl

theorem opChunks_succ (p : Op) (k : Nat) (s : State) : opChunks p (k + 1) s = opChunk p s >>= opChunks p k := rfl

theorem opChunks_ok {p : Op} {k : Nat} {s t : State} (h : opChunks p k s = .ok t) :
    OpFrame p s t ∧ t.fatal = s.fatal ∧ t.idx = s.idx + k := by
  induction k generalizing s with
  | zero =>
    rw [opChunks_zero] at h
    cases h
    exact ⟨OpFrame.refl p _, rfl, rfl⟩
  | succ k ih =>
    rw [opChunks_succ] at h
    cases hc : opChunk p s with
    | error u => rw [hc] at h; cases h
    | ok u =>
      rw [hc] at h
      obtain ⟨f, hf, hi⟩ := opChunk_ok hc
      obtain ⟨g, gf, gi⟩ := ih h
      exact ⟨f.trans g, gf.trans hf, by omega⟩

theorem opChunks_error {p : Op} {k : Nat} {s t : State} (h : opChunks p k s = .error t) :
    OpFrame p s t ∧ t.fatal = true ∧ t.idx < s.idx + k := by
  induction k generalizing s with
  | zero =>
    rw [opChunks_zero] at h
    cases h
  | succ k ih =>
    rw [opChunks_succ] at h
    cases hc : opChunk p s with
    | error u =>
      rw [hc] at h
      obtain rfl := Except.error.inj h
      have he := opChunk_error hc
      refine ⟨?_, by rw [he], by rw [he]; simp⟩
      rw [he]
      exact OpFrame.scratch p s s.ctrw s.idx _ true
    | ok u =>
      rw [hc] at h
      obtain ⟨f, -, hi⟩ := opChunk_ok hc
      obtain ⟨g, gf, gi⟩ := ih h
      exact ⟨f.trans g, gf, by omega⟩

/-- A completed `CtrRun` changes only what `OpFrame` allows, and not `FATAL` (R132). -/
theorem ctrRun_ok {p : Op} {s t : State} (h : ctrRun p s = .ok t) :
    OpFrame p s t ∧ t.fatal = s.fatal ∧ t.idx = chunks p.len.toNat := by
  unfold ctrRun at h
  cases hs : opStart p s with
  | error u => rw [hs] at h; cases h
  | ok u =>
    rw [hs] at h
    obtain ⟨f, hf, hi⟩ := opStart_ok hs
    cases hc : opChunks p (chunks p.len.toNat) u with
    | error v => simp only [bind, Except.bind, hc] at h; cases h
    | ok v =>
      simp only [bind, Except.bind, hc] at h
      obtain ⟨g, gf, gi⟩ := opChunks_ok hc
      obtain ⟨e, he⟩ := opFinish_ok h
      refine ⟨(f.trans g).trans e, ?_, ?_⟩
      · rw [he]
        exact gf.trans hf
      · rw [he]
        simpa [hi] using gi

/-- A `CtrRun` that raises the fatal fault changes only what `OpFrame` allows and leaves `FATAL` at 1 (R175). -/
theorem ctrRun_error {p : Op} {s t : State} (h : ctrRun p s = .error t) :
    OpFrame p s t ∧ t.fatal = true ∧ (t.idx = s.idx ∨ t.idx ≤ chunks p.len.toNat) := by
  unfold ctrRun at h
  cases hs : opStart p s with
  | error u =>
    rw [hs] at h
    cases h
    rw [opStart_error hs]
    exact ⟨OpFrame.scratch p s s.ctrw s.idx s.ksb true, rfl, .inl rfl⟩
  | ok u =>
    rw [hs] at h
    obtain ⟨f, hf, hi⟩ := opStart_ok hs
    cases hc : opChunks p (chunks p.len.toNat) u with
    | error v =>
      simp only [bind, Except.bind, hc] at h
      cases h
      obtain ⟨g, gf, gi⟩ := opChunks_error hc
      exact ⟨f.trans g, gf, .inr (by omega)⟩
    | ok v =>
      simp only [bind, Except.bind, hc] at h
      obtain ⟨g, gf, gi⟩ := opChunks_ok hc
      rw [opFinish_error h]
      exact ⟨(f.trans g).trans (OpFrame.scratch p v v.ctrw v.idx v.ksb true), rfl, .inr (by simp; omega)⟩

/-- A buffer of fewer than `2^32` bytes has at most `2^28` chunks (R27). -/
theorem chunks_le (w : Word) : chunks w.toNat ≤ 268435456 := by
  have := w.isLt
  unfold chunks
  omega

theorem inc128_eq (c : BitVec 128) : inc128 c = c + 1 := rfl

end Sys2Proof.Machine
end

