-- ==== Sys2Proof/Laws/Commands.lean ====
section
/-!
SUPPORT. Everything a command can do, said once: whenever a descriptor is run, one of seven things happens.
-/

namespace Sys2Proof.Machine

@[simp] theorem endSync_ok (s : State) : endSync (.ok s) = .next (s.releaseScratch.respond .ok 0) := rfl

@[simp] theorem endSync_error (s : State) : endSync (.error s) = .next s.releaseScratch := rfl

/-- What running descriptor `w` in `s` can lead to (R80, R141 to R145, R155, R175). -/
inductive CommandStep (w : Desc) (s : State) : State → Prop where
  /-- It is answered with a negative status and has no other effect. -/
  | rejected (st : Status) (code : Status.code st < 0) : CommandStep w s (s.respond st 0)
  /-- It is valid and waits on the port for `Q` to become empty. -/
  | held (valid : heldValid w s = true) (busy : s.q ≠ []) : CommandStep w s (s.present w)
  /-- `SET_KEY` completes. -/
  | installed (a0 : Word) (dec : decode w = .ok (.setKey a0 16)) (quiet : s.q = [])
      (mapped : Platform.allMapped s.plat a0.toNat 16 = true) :
      CommandStep w s
        ((s.installKey (keyExpansion (blockOfBytes (Memory.readBytes s.mem a0.toNat 16)))).respond .ok 0)
  /-- `SET_KEY` meets an unmapped byte. -/
  | keyFault (valid : heldValid w s = true) (quiet : s.q = []) : CommandStep w s (s.present w).raiseFatal
  /-- A synchronous transform completes. -/
  | transformed (p : Op) (valid : heldValid w s = true) (quiet : s.q = []) (u : State)
      (ran : ctrRun p (s.present w) = .ok u) : CommandStep w s (u.releaseScratch.respond .ok 0)
  /-- A synchronous transform meets an unmapped byte. -/
  | transformFault (p : Op) (valid : heldValid w s = true) (quiet : s.q = []) (u : State)
      (ran : ctrRun p (s.present w) = .error u) : CommandStep w s u.releaseScratch
  /-- An asynchronous transform is accepted. -/
  | submitted (p : Pending) (keyed : s.keyValid = true) (regions : Op.regionsOk p.toOp = true)
      (room : Platform.full s.plat s.q.length = false) :
      CommandStep w s ((s.enqueue p).respond .submitted p.tok)

theorem encode_of_decode {w : Desc} {i : Instr} (h : encodeCmd i = Cmd.ofDesc w) : encode i = w := by
  rw [encode, h, Cmd.toDesc_ofDesc]

/-- A decoding that succeeds has read the command's own fields. -/
theorem encodeCmd_of_decode {w : Desc} {i : Instr} (h : decode w = .ok i) : encodeCmd i = Cmd.ofDesc w := by
  rw [decode] at h
  generalize Cmd.ofDesc w = c at h
  obtain ⟨opc, rsv0, a0, l0, a1, l1, cb, tok, rsv1⟩ := c
  simp only [decodeCmd] at h
  repeat' split at h
  all_goals
    first
      | (simp only [reduceCtorEq] at h)
      | (obtain rfl := Except.ok.inj h
         simp_all [encodeCmd])

theorem execSetKey_step {w : Desc} {a0 l0 : Word} {s : State} (hd : decode w = .ok (.setKey a0 l0)) :
    ∃ t, execSetKey a0 l0 s = .next t ∧ CommandStep w s t := by
  have hw : encode (.setKey a0 l0) = w := encode_of_decode (encodeCmd_of_decode hd)
  unfold execSetKey
  rw [hw]
  by_cases h1 : l0 ≠ 16
  · rw [if_pos h1]
    exact ⟨_, rfl, .rejected .invalidKeyLength (by decide)⟩
  · rw [if_neg h1]
    have h1 : l0 = 16 := Classical.not_not.1 h1
    by_cases h2 : regionOk a0 16 = false
    · rw [if_pos h2]
      exact ⟨_, rfl, .rejected .illegalCommand (by decide)⟩
    · rw [if_neg h2]
      have hv : heldValid w s = true := by
        simp only [heldValid, hd, h1, Bool.not_eq_false _ ▸ h2]
        rfl
      by_cases h3 : (s.present w).q ≠ []
      · rw [if_pos h3]
        exact ⟨_, rfl, .held hv h3⟩
      · rw [if_neg h3]
        have h3 : s.q = [] := Classical.not_not.1 h3
        subst h1
        cases hr : memRead a0.toNat 16 (s.present w) with
        | ok bs =>
          obtain ⟨hm, rfl⟩ := memRead_ok_iff.1 hr
          refine ⟨_, ?_, .installed a0 hd h3 hm⟩
          unfold installFrom
          rw [hr]
          rfl
        | error u =>
          obtain ⟨-, rfl⟩ := memRead_error_iff.1 hr
          refine ⟨_, ?_, .keyFault hv h3⟩
          unfold installFrom
          rw [hr]
          rfl

theorem validate_code {p : Op} {l1 : Word} {s : State} {st : Status} (h : validate p l1 s = some st) :
    Status.code st < 0 := by
  unfold validate at h
  repeat' split at h
  all_goals
    first
      | (obtain rfl := Option.some.inj h
         decide)
      | (simp only [reduceCtorEq] at h)

theorem validateAsync_code {p : Op} {l1 : Word} {s : State} {st : Status} (h : validateAsync p l1 s = some st) :
    Status.code st < 0 := by
  unfold validateAsync at h
  split at h
  · obtain rfl := Option.some.inj h
    exact validate_code ‹_›
  · split at h
    · obtain rfl := Option.some.inj h
      decide
    · simp only [reduceCtorEq] at h

theorem runSync_step {w : Desc} {p : Op} {l1 : Word} {s : State}
    (hv : validate p l1 s = none → heldValid w s = true) :
    ∃ t, runSync w p l1 s = .next t ∧ CommandStep w s t := by
  unfold runSync
  dsimp only
  cases h : validate p l1 (s.present w) with
  | some st => exact ⟨_, rfl, .rejected st (validate_code h)⟩
  | none =>
    have hv := hv (validate_congr (s := s.present w) (t := s) rfl ▸ h)
    dsimp only
    by_cases h3 : (s.present w).q ≠ []
    · rw [if_pos h3]
      exact ⟨_, rfl, .held hv h3⟩
    · rw [if_neg h3]
      have h3 : s.q = [] := Classical.not_not.1 h3
      cases hr : ctrRun p (s.present w) with
      | ok u => exact ⟨_, rfl, .transformed p hv h3 u hr⟩
      | error u => exact ⟨_, rfl, .transformFault p hv h3 u hr⟩

theorem runAsync_step (w cmd : Desc) (p : Pending) (l1 : Word) (s : State) :
    ∃ t, runAsync cmd p l1 s = .next t ∧ CommandStep w s t := by
  unfold runAsync
  dsimp only
  cases h : validateAsync p.toOp l1 (s.present cmd) with
  | some st => exact ⟨_, rfl, .rejected st (validateAsync_code h)⟩
  | none =>
    obtain ⟨hk, -, hr, hf⟩ := validateAsync_none_iff.1 h
    exact ⟨_, rfl, .submitted p hk hr hf⟩

/-- Running a descriptor always answers a next state, and it is one of those of `CommandStep`. -/
theorem runCommand_step (w : Desc) (s : State) : ∃ t, runCommand w s = .next t ∧ CommandStep w s t := by
  unfold runCommand
  cases hd : decode w with
  | error e => exact ⟨_, rfl, .rejected .illegalCommand (by decide)⟩
  | ok i =>
    have hw : encode i = w := encode_of_decode (encodeCmd_of_decode hd)
    cases i with
    | setKey a0 l0 => exact execSetKey_step hd
    | encryptCtrSync a0 l0 a1 l1 =>
      show ∃ t, runSync _ _ _ _ = _ ∧ _
      rw [hw]
      exact runSync_step fun h => by simp only [heldValid, hd, h]; rfl
    | decryptCtrSync a0 l0 a1 l1 =>
      show ∃ t, runSync _ _ _ _ = _ ∧ _
      rw [hw]
      exact runSync_step fun h => by simp only [heldValid, hd, h]; rfl
    | encryptCtrAsync a0 l0 a1 l1 cb tok => exact runAsync_step w _ _ l1 s
    | decryptCtrAsync a0 l0 a1 l1 cb tok => exact runAsync_step w _ _ l1 s

theorem runCommand_next {w : Desc} {s t : State} (h : runCommand w s = .next t) : CommandStep w s t := by
  obtain ⟨u, hu, hs⟩ := runCommand_step w s
  obtain rfl := Host.Outcome.next.inj (hu.symm.trans h)
  exact hs

/-- Whether a held descriptor is valid depends on `KEY_VALID` alone of the state. -/
theorem heldValid_congr {w : Desc} {s t : State} (h : s.keyValid = t.keyValid) :
    heldValid w s = heldValid w t := by
  unfold heldValid
  repeat' split
  all_goals first | rfl | rw [validate_congr h]

end Sys2Proof.Machine
end

