-- ==== Sys2Proof/Laws/PerInstr.lean ====
section
/-!
SUPPORT. Statements made per command: the descriptor of every command is legal (spec/30_encoding.md R67, R69).
-/

namespace Sys2Proof.Laws.EncodesLegal

/-- The encoded command passes the three checks of R73. -/
def Statement (i : Instr) : Prop := (Cmd.ofDesc (encode i)).legal = true

theorem setKey (a0 l0 : Word) : Statement (.setKey a0 l0) := by
  rw [Statement, ofDesc_encode]
  rfl

theorem encryptCtrSync (a0 l0 a1 l1 : Word) : Statement (.encryptCtrSync a0 l0 a1 l1) := by
  rw [Statement, ofDesc_encode]
  rfl

theorem decryptCtrSync (a0 l0 a1 l1 : Word) : Statement (.decryptCtrSync a0 l0 a1 l1) := by
  rw [Statement, ofDesc_encode]
  rfl

theorem encryptCtrAsync (a0 l0 a1 l1 cb tok : Word) : Statement (.encryptCtrAsync a0 l0 a1 l1 cb tok) := by
  rw [Statement, ofDesc_encode]
  rfl

theorem decryptCtrAsync (a0 l0 a1 l1 cb tok : Word) : Statement (.decryptCtrAsync a0 l0 a1 l1 cb tok) := by
  rw [Statement, ofDesc_encode]
  rfl

end Sys2Proof.Laws.EncodesLegal
end

