-- ==== Sys2Proof/Laws/Step.lean ====
section
/-!
SUPPORT. Everything an engine step and a step of the machine can do, said once; invariants are proved by cases on these.
-/

namespace Sys2Proof.Machine

/-- What the engine's turn can lead to (R149 to R151, R154, R175). -/
inductive EngineMove (s : State) : State → Prop where
  /-- No engine step is enabled. -/
  | none : EngineMove s s
  | start (p : Pending) (rest : List Pending) (alive : s.fatal = false) (head : s.q = p :: rest) (phase : s.eng = .idle)
      (u : State) (ran : opStart p.toOp s = .ok u) : EngineMove s u.setRun
  | chunk (p : Pending) (rest : List Pending) (alive : s.fatal = false) (head : s.q = p :: rest) (phase : s.eng = .run)
      (more : s.idx < chunks p.len.toNat) (u : State) (ran : opChunk p.toOp s = .ok u) : EngineMove s u
  | finish (p : Pending) (rest : List Pending) (alive : s.fatal = false) (head : s.q = p :: rest) (phase : s.eng = .run)
      (done : s.idx = chunks p.len.toNat) (u : State) (ran : opFinish p.toOp s = .ok u) :
      EngineMove s (u.notify p.ntf).retire.releaseScratch
  /-- The step of the head met an unmapped byte: only `FATAL` and `KSB` have changed. -/
  | fault (p : Pending) (rest : List Pending) (alive : s.fatal = false) (head : s.q = p :: rest) (k : Block) :
      EngineMove s { s with ksb := k, fatal := true }

/-- The engine's turn always answers a next state, and it is one of those of `EngineMove`. -/
theorem engineStep_move (s : State) : ∃ t, engineStep s = .next t ∧ EngineMove s t := by
  unfold engineStep
  split
  · rename_i p rest hf hq
    split
    · rename_i he
      cases hr : opStart p.toOp s with
      | ok u => exact ⟨_, by rw [engineStart, hr]; rfl, .start p rest hf hq he u hr⟩
      | error u =>
        have hu := opStart_error hr
        refine ⟨u, by rw [engineStart, hr]; rfl, ?_⟩
        rw [hu]
        exact .fault p rest hf hq s.ksb
    · rename_i he
      split
      · rename_i hi
        cases hr : opChunk p.toOp s with
        | ok u => exact ⟨_, by rw [engineChunk, hr]; rfl, .chunk p rest hf hq he hi u hr⟩
        | error u =>
          have hu := opChunk_error hr
          refine ⟨u, by rw [engineChunk, hr]; rfl, ?_⟩
          rw [hu]
          exact .fault p rest hf hq u.ksb
      · split
        · rename_i hi
          cases hr : opFinish p.toOp s with
          | ok u => exact ⟨_, by rw [engineFinish, hr]; rfl, .finish p rest hf hq he hi u hr⟩
          | error u =>
            have hu := opFinish_error hr
            refine ⟨u, by rw [engineFinish, hr]; rfl, ?_⟩
            rw [hu]
            exact .fault p rest hf hq s.ksb
        · exact ⟨_, rfl, .none⟩
  · exact ⟨_, rfl, .none⟩

/-- What a step can lead to (R200), by the agent that moved; `r` is the state with the turn taken. -/
inductive Move (r : State) : Turn → State → Prop where
  | reset : Move r .reset r.applyReset
  | engine (t : State) (move : EngineMove r t) : Move r .engine t
  /-- The host has no enabled step. -/
  | wait : Move r .host r
  | resumed (w : Desc) (alive : r.fatal = false) (port : r.port = .held w) (t : State) (ran : CommandStep w r t) :
      Move r .host t
  | presented (w : Desc) (rest : List HostAct) (alive : r.fatal = false) (port : r.port = .free)
      (prog : r.prog = .command w :: rest) (t : State) (ran : CommandStep w (r.setProg rest) t) :
      Move r .host t
  | load (a : Word) (n : Nat) (rest : List HostAct) (port : r.port = .free) (prog : r.prog = .load a n :: rest)
      (bytes : List Byte) :
      Move r .host ((r.setProg rest).logRead { addr := a, bytes := bytes } n)
  | store (a : Word) (bs : List Byte) (rest : List HostAct) (port : r.port = .free)
      (prog : r.prog = .store a bs :: rest) (inside : a.toNat + bs.length ≤ memSize)
      (mine : ∀ k, k < bs.length → owned r.q (a.toNat + k) = false) :
      Move r .host ((r.setProg rest).setMem (Memory.writeBytes r.mem a.toNat bs))

theorem hostStep_move {r t : State} (h : hostStep r = .next t) : Move r .host t := by
  unfold hostStep at h
  split at h
  · rename_i w hp
    split at h
    · obtain rfl := Host.Outcome.next.inj h
      exact .wait
    · exact .resumed w (Bool.not_eq_true _ ▸ ‹¬ r.fatal = true›) hp t (runCommand_next h)
  · rename_i hp
    split at h
    · obtain rfl := Host.Outcome.next.inj h
      exact .wait
    · rename_i w rest hg
      split at h
      · obtain rfl := Host.Outcome.next.inj h
        exact .wait
      · exact .presented w rest (Bool.not_eq_true _ ▸ ‹¬ r.fatal = true›) hp hg t (runCommand_next h)
    · rename_i a n rest hg
      unfold hostLoad at h
      split at h
      · simp only [reduceCtorEq] at h
      · obtain rfl := Host.Outcome.next.inj h
        exact .load a n rest hp hg _
    · rename_i a bs rest hg
      unfold hostStore at h
      split at h
      · simp only [reduceCtorEq] at h
      · rename_i hr
        split at h
        · simp only [reduceCtorEq] at h
        · rename_i ho
          obtain rfl := Host.Outcome.next.inj h
          refine .store a bs rest hp hg (regionOk_iff.1 (Bool.not_eq_false _ ▸ hr)) fun k hk => ?_
          simp only [List.any_eq_true, not_exists, not_and, Bool.not_eq_true, List.mem_range] at ho
          exact ho k hk

/-- A step that answers a next state is one of the moves. -/
theorem step_move {s t : State} (h : step s = .next t) : Move (s.setTurns s.turns.tail) s.turn t := by
  unfold step interleave agentStep at h
  generalize s.turn = m at h ⊢
  split at h
  · exact hostStep_move h
  · obtain ⟨u, hu, hm⟩ := engineStep_move (s.setTurns s.turns.tail)
    obtain rfl := Host.Outcome.next.inj (hu.symm.trans h)
    exact .engine _ hm
  · obtain rfl := Host.Outcome.next.inj h
    exact .reset

end Sys2Proof.Machine
end

