-- ==== Sys2Proof/Machine/Text.lean ====
section
/-!
DEFINITION. The textual form of commands and of the actions between them (spec/30_encoding.md R71), the pseudo-forms of R72,
and the names of the statuses (spec/00_scope.md R12). Nothing the machine does reads them.
-/

namespace Sys2Proof.Machine

/-- A number in C notation, in hexadecimal. -/
def numText (n : Nat) : String := "0x" ++ String.ofList (Nat.toDigits 16 n)

/-- A byte as two hexadecimal digits (R9). -/
def byteText (b : Byte) : String := String.ofList [Nat.digitChar (b.toNat / 16), Nat.digitChar (b.toNat % 16)]

/-- The command's name (R12, R62). -/
def Instr.mnemonic : Instr → String
  | .setKey _ _ => "SET_KEY"
  | .encryptCtrSync _ _ _ _ => "ENCRYPT_CTR_SYNC"
  | .decryptCtrSync _ _ _ _ => "DECRYPT_CTR_SYNC"
  | .encryptCtrAsync _ _ _ _ _ _ => "ENCRYPT_CTR_ASYNC"
  | .decryptCtrAsync _ _ _ _ _ _ => "DECRYPT_CTR_ASYNC"

/-- The buffer and counter keywords of a transform (R71). -/
def transformText (a0 l0 a1 l1 : Word) : String :=
  " buf=" ++ numText a0.toNat ++ ", len=" ++ numText l0.toNat ++ ", ctr=" ++ numText a1.toNat ++ ", ctrlen=" ++ numText l1.toNat

/-- The callback and token keywords of a submission (R71). -/
def submissionText (cb tok : Word) : String := ", cb=" ++ numText cb.toNat ++ ", tok=" ++ numText tok.toNat

/-- The line of a command (R71). -/
def Instr.text (i : Instr) : String :=
  Instr.mnemonic i ++
    match i with
    | .setKey a0 l0 => " key=" ++ numText a0.toNat ++ ", keylen=" ++ numText l0.toNat
    | .encryptCtrSync a0 l0 a1 l1 => transformText a0 l0 a1 l1
    | .decryptCtrSync a0 l0 a1 l1 => transformText a0 l0 a1 l1
    | .encryptCtrAsync a0 l0 a1 l1 cb tok => transformText a0 l0 a1 l1 ++ submissionText cb tok
    | .decryptCtrAsync a0 l0 a1 l1 cb tok => transformText a0 l0 a1 l1 ++ submissionText cb tok

/-- The line of a host access between commands (R71). -/
def accessText (a : Word) : Nat ⊕ List Byte → String
  | .inl n => "load " ++ numText a.toNat ++ ", " ++ numText n
  | .inr bs => "store " ++ numText a.toNat ++ ", " ++ String.join (bs.map byteText)

/-- The name of a status (R12, R65). -/
def Status.text : Status → String
  | .ok => "OK"
  | .submitted => "SUBMITTED"
  | .invalidKeyLength => "InvalidKeyLength"
  | .keyNotSet => "KeyNotSet"
  | .invalidCounterLength => "InvalidCounterLength"
  | .submissionRejected => "SubmissionRejected"
  | .illegalCommand => "IllegalCommand"

/-- The response after a command's line; the token is shown on `SUBMITTED` only (R71). -/
def Rsp.text (r : Rsp) : String :=
  " -> " ++ r.status.text ++ if r.status = .submitted then " tok=" ++ numText r.token.toNat else ""

/-- `SET_KEY` with `keylen=` left out (R72). -/
def setKeyShort (a0 : Word) : Instr := .setKey a0 16

/-- `ENCRYPT_CTR_SYNC` with `ctrlen=` left out (R72). -/
def encryptCtrSyncShort (a0 l0 a1 : Word) : Instr := .encryptCtrSync a0 l0 a1 16

/-- `DECRYPT_CTR_SYNC` with `ctrlen=` left out (R72). -/
def decryptCtrSyncShort (a0 l0 a1 : Word) : Instr := .decryptCtrSync a0 l0 a1 16

/-- `ENCRYPT_CTR_ASYNC` with `ctrlen=` left out (R72). -/
def encryptCtrAsyncShort (a0 l0 a1 cb tok : Word) : Instr := .encryptCtrAsync a0 l0 a1 16 cb tok

/-- `DECRYPT_CTR_ASYNC` with `ctrlen=` left out (R72). -/
def decryptCtrAsyncShort (a0 l0 a1 cb tok : Word) : Instr := .decryptCtrAsync a0 l0 a1 16 cb tok

end Sys2Proof.Machine
end

