-- ==== Sys2Proof/Tests/Slice0.lean ====
section
/-!
SUPPORT. The model's own tests. Expected values come from spec/95_test_vectors.md (V1 to V12, P2) and the worked examples of the
rules; each comment names the place. The second half shows, for every statement with hypotheses, values that meet them.
-/

namespace Sys2Proof.Tests

open Sys2Proof Sys2Proof.Machine Sys2Proof.Claims

/-! ### Helpers -/

/-- The next state of an outcome. -/
def after (o : Host.Outcome State Fault Refusal) : Option State :=
  match o with
  | .next s => some s
  | _ => none

/-- The fault of an outcome. -/
def faultOf (o : Host.Outcome State Fault Refusal) : Option Fault :=
  match o with
  | .fault f => some f
  | _ => none

/-- 16 bytes written as one hexadecimal number, lowest address first (R9). -/
abbrev hex (n : BitVec 128) : Block := bytes128 n

def nistKey : Block := hex 0x2b7e151628aed2a6abf7158809cf4f3c
def nistCtr : Block := hex 0xf0f1f2f3f4f5f6f7f8f9fafbfcfdfeff
def nistPt0 : Block := hex 0x6bc1bee22e409f96e93d7e117393172a
def nistCt0 : Block := hex 0x874d6191b620e3261bef6864990db6ce

/-- The key schedule of V2. -/
def nistRk : RoundKeys :=
  #v[hex 0x2b7e151628aed2a6abf7158809cf4f3c, hex 0xa0fafe1788542cb123a339392a6c7605, hex 0xf2c295f27a96b9435935807a7359f67f,
    hex 0x3d80477d4716fe3e1e237e446d7a883b, hex 0xef44a541a8525b7fb671253bdb0bad00, hex 0xd4d1c6f87c839d87caf2b8bc11f915bc,
    hex 0x6d88a37a110b3efddbf98641ca0093fd, hex 0x4e54f70e5f5fc9f384a64fb24ea6dc4f, hex 0xead27321b58dbad2312bf5607f8d292f,
    hex 0xac7766f319fadc2128d12941575c006e, hex 0xd014f9a8c9ee2589e13f0cc8b6630ca6]

/-- The memory of R142's example: the key at 0x1000, the counter at 0x1010, plaintext at 0x2000, then 4 bytes, then guards. -/
def nistMem : Memory :=
  Memory.writeBytes
    (Memory.writeBytes (Memory.writeBytes (Memory.writeBytes [] 0x1000 nistKey.toList) 0x1010 nistCtr.toList) 0x2000
      nistPt0.toList)
    0x2010 [0xae, 0x2d, 0x8a, 0x57, 0xee, 0xee, 0xee, 0xee]

/-- A block with the key of V2 installed. -/
def keyed : State := { State.reset with keyValid := true, rk := nistRk, mem := nistMem }

/-- The operation of P2. -/
def p2Op : Pending := { kind := .encrypt, buf := 0x2000, len := 20, ctr := 0x1010, cb := 0x8000, tok := 0xa5a5 }

/-- An operation without data. -/
def emptyOp : Pending := { kind := .decrypt, buf := 0x2000, len := 0, ctr := 0x1010, cb := 0x8000, tok := 3 }

/-- The keyed block with one operation outstanding. -/
def busy : State := { keyed with q := [p2Op] }

/-- The state of P2 after line 2. -/
def running : State := { busy with eng := .run, ctrw := be128 nistCtr.toList, idx := 0 }

/-- A platform in which only the given addresses are not mapped. -/
def withHole (s : State) (base size : Nat) : State := { s with plat := { s.plat with holes := [⟨base, size⟩] } }

def setKeyWord : Desc := 0x0000000000000000000000000000000000000000000000100000100000000001
def encSyncWord : Desc := 0x0000000000000000000000000000001000001010000000400000200000000010
def decSyncWord : Desc := 0x0000000000000000000000000000001000001010000000400000200000000011
def encAsyncWord : Desc := 0x000000000000a5a5000080000000001000001010000000400000200000000012
def decAsyncWord : Desc := 0x0000000000005a5a000080000000001000001010000000400000200000000013

/-! ### Well-formedness and decoding -/

/-- R73 (1): V11 row 15, `RSV0 = 1`. -/
theorem test_reserved_field_refused :
    (Cmd.ofDesc 0x0000000000000000000000000000000000000000000000100000100000000101).reservedZero = false := by decide

/-- R73 (2): V11 row 13, `OPC = 0x14`. -/
theorem test_reserved_opcode_refused :
    (Cmd.ofDesc 0x0000000000000000000000000000000000000000000000100000100000000014).opcodeAssigned = false := by decide

/-- R73 (3): V11 row 5, `SET_KEY` with `TOK = 7`. -/
theorem test_unused_field_refused :
    (Cmd.ofDesc 0x0000000000000007000000000000000000000000000000100000100000000001).unusedZero = false := by decide

/-- V12, first row. -/
theorem test_decode_set_key : decode setKeyWord = .ok (.setKey 0x1000 16) := by decide

/-- V12, second row. -/
theorem test_decode_encrypt_sync : decode encSyncWord = .ok (.encryptCtrSync 0x2000 64 0x1010 16) := by decide

/-- V12, third row. -/
theorem test_decode_decrypt_sync : decode decSyncWord = .ok (.decryptCtrSync 0x2000 64 0x1010 16) := by decide

/-- V12, fourth row. -/
theorem test_decode_encrypt_async :
    decode encAsyncWord = .ok (.encryptCtrAsync 0x2000 64 0x1010 16 0x8000 0xa5a5) := by decide

/-- V12, fifth row. -/
theorem test_decode_decrypt_async :
    decode decAsyncWord = .ok (.decryptCtrAsync 0x2000 64 0x1010 16 0x8000 0x5a5a) := by decide

/-- V12 read the other way. -/
theorem test_encode_words :
    encode (.setKey 0x1000 16) = setKeyWord ∧ encode (.encryptCtrSync 0x2000 64 0x1010 16) = encSyncWord ∧
      encode (.decryptCtrSync 0x2000 64 0x1010 16) = decSyncWord ∧
      encode (.encryptCtrAsync 0x2000 64 0x1010 16 0x8000 0xa5a5) = encAsyncWord ∧
      encode (.decryptCtrAsync 0x2000 64 0x1010 16 0x8000 0x5a5a) = decAsyncWord := by decide

/-- V11 rows 15, 16, 13, 14, 5 and 10, in the order of the steps of R73. -/
theorem test_decode_illegal :
    decode 0x0000000000000000000000000000000000000000000000100000100000000101 = .error .reservedField ∧
      decode 0x0000000100000000000000000000000000000000000000100000100000000001 = .error .reservedField ∧
      decode 0x0000000000000000000000000000000000000000000000100000100000000014 = .error .reservedOpcode ∧
      decode 0x0000000000000000000000000000000000000000000000100000100000000000 = .error .reservedOpcode ∧
      decode 0x0000000000000007000000000000000000000000000000100000100000000001 = .error .unusedField ∧
      decode 0x0000000000000000000000010000001000001010000000400000200000000010 = .error .unusedField := by decide

/-- R63 at V12's fourth word: one row selects it. -/
theorem test_mask_selects_one : maskRows.map (fun r => r.selects encAsyncWord) = [false, false, false, true, false] := by decide

/-- The match word of a row of the opcode table, numbered as the table numbers it. -/
theorem test_table_word :
    decodeTableWord 256 0x12 = some (.encryptCtrAsync 0 0 0 0 0 0) ∧ decodeTableWord 256 0x14 = none := by decide

/-- The same word as the first command after reset: a key of length 0 is refused by its status (V11 row 3's check). -/
theorem test_first_step_set_key :
    (after (step (State.reset.withFetchWord 256 0x01))).map (fun t => t.rsps) =
      some [{ status := .invalidKeyLength, token := 0 }] := by decide

/-- V11 row 1 as the first command after reset. -/
theorem test_first_step_encrypt :
    (after (step (State.reset.withFetchWord 256
      0x0000000000000000000000000000001000001010000000400000200000000010))).map (fun t => (t.rsps, t.port)) =
      some ([{ status := .keyNotSet, token := 0 }], .free) := by decide

/-! ### Port words -/

/-- V12's closing lines: responses and notifications as words. -/
theorem test_port_words :
    Rsp.word { status := .submitted, token := 0xa5a5 } = 0x0000a5a500000001 ∧
      Rsp.word { status := .keyNotSet, token := 0 } = 0x00000000fffffffe ∧
      Ntf.word { cb := 0x8000, kind := .encrypt, tok := 0xa5a5 } = 0x000000000000a5a50000000000008000 ∧
      Ntf.word { cb := 0x8000, kind := .decrypt, tok := 0x5a5a } = 0x0000000000005a5a0000000100008000 := by decide

/-- R71's forms, and R72's example of one left out. -/
theorem test_text :
    Instr.text (.encryptCtrAsync 0x2000 64 0x1010 16 0x8000 0xa5a5) =
        "ENCRYPT_CTR_ASYNC buf=0x2000, len=0x40, ctr=0x1010, ctrlen=0x10, cb=0x8000, tok=0xa5a5" ∧
      Rsp.text { status := .submitted, token := 0xa5a5 } = " -> SUBMITTED tok=0xa5a5" ∧
      accessText 0x1010 (.inr [0xf0, 0x0f]) = "store 0x1010, f00f" ∧ setKeyShort 0x1000 = .setKey 0x1000 16 := by
  decide +kernel

/-! ### Key schedule and cipher -/

/-- V5, single steps. -/
theorem test_field : xtime 0x57 = 0xae ∧ xtime 0xae = 0x47 ∧ gmul 0x57 0x13 = 0xfe ∧ gmul 0x57 0x83 = 0xc1 := by decide

/-- R86's example. -/
theorem test_sbox : sbox 0x00 = 0x63 ∧ sbox 0x53 = 0xed ∧ sbox 0xff = 0x16 := by decide

/-- R10 and R44: the byte at the lowest address is the most significant one. -/
theorem test_byte_order :
    bytes128 0x000102030405060708090a0b0c0d0e0f = #v[0, 1, 2, 3, 4, 5, 6, 7, 8, 9, 10, 11, 12, 13, 14, 15] := by
  decide +kernel

/-- V5, single steps. -/
theorem test_shift_rows :
    shiftRows (hex 0x000102030405060708090a0b0c0d0e0f) = hex 0x00050a0f04090e03080d02070c01060b := by decide +kernel

/-- V5, single steps. -/
theorem test_mix_columns :
    mixColumns (hex 0xdb135345f20a225c01010101c6c6c6c6) = hex 0x8e4da1bc9fdc589d01010101c6c6c6c6 := by decide +kernel

/-- R90: words 3, 4 and 5 of the schedule. -/
theorem test_key_words :
    ((keyWords nistKey).drop 3).take 3 = [#v[0x09, 0xcf, 0x4f, 0x3c], #v[0xa0, 0xfa, 0xfe, 0x17], #v[0x88, 0x54, 0x2c, 0xb1]] := by
  decide +kernel

/-- V2. -/
theorem test_key_expansion : keyExpansion nistKey = nistRk := by decide +kernel

/-- V3, all-zero key, round keys 1 and 10. -/
theorem test_key_expansion_zero :
    (keyExpansion zeroBlock)[1] = hex 0x62636363626363636263636362636363 ∧
      (keyExpansion zeroBlock)[10] = hex 0xb4ef5bcb3e92e21123e951cf6f8f188e := by decide +kernel

/-- V4: round 1, step by step. -/
theorem test_round_one :
    addRoundKey nistCtr nistRk[0] = hex 0xdb8fe7e5dc5b2451530eef73f532b1c3 ∧
      cipherRound (hex 0xdb8fe7e5dc5b2451530eef73f532b1c3) nistRk[1] = hex 0x7365a97d6805faeac27eac1bd1b90574 ∧
      finalRound (hex 0x6d21435b70e218cd82e623f6a753159f) nistRk[10] = hex 0xec8cdf7398607cb0f2d21675ea9ea1e4 := by
  decide +kernel

/-- V5, first row. -/
theorem test_encrypt_block :
    encryptBlock (keyExpansion (hex 0x000102030405060708090a0b0c0d0e0f)) (hex 0x00112233445566778899aabbccddeeff) =
      hex 0x69c4e0d86a7b0430d8cdb78070b4c55a := by decide +kernel

/-- V6. -/
theorem test_inc128 :
    inc128 0xf0f1f2f3f4f5f6f7f8f9fafbfcfdfeff = 0xf0f1f2f3f4f5f6f7f8f9fafbfcfdff00 ∧
      inc128 0x00ffffffffffffffffffffffffffffff = 0x01000000000000000000000000000000 ∧
      inc128 0xffffffffffffffffffffffffffffffff = 0 := by decide

/-- V7, `L = 17`. -/
theorem test_ctr_process :
    ctrProcess nistRk (nistPt0.toList ++ [0xae]) (be128 nistCtr.toList) =
      (nistCt0.toList ++ [0x98], 0xf0f1f2f3f4f5f6f7f8f9fafbfcfdff01) := by decide +kernel

/-- V7, `L = 0`. -/
theorem test_ctr_process_empty :
    ctrProcess nistRk [] (be128 nistCtr.toList) = ([], be128 nistCtr.toList) := by decide +kernel

/-! ### Memory -/

/-- A write, an overwrite, and a write of what an unlisted address reads as. -/
theorem test_memory_canonical :
    Memory.write (Memory.write (Memory.write [] 5 0xaa) 3 0xbb) 5 0x00 = [(3, 0xbb)] ∧ Memory.wf nistMem := by
  decide +kernel

/-! ### Commands -/

/-- R80's example. -/
theorem test_set_key :
    (after (exec (.setKey 0x1000 16) { State.reset with mem := nistMem })).map (fun t => (t.keyValid, t.rk, t.rsps, t.port)) =
      some (true, nistRk, [{ status := .ok, token := 0 }], .free) := by decide +kernel

/-- V11 rows 6, 4 and 3: the region and the length checks. -/
theorem test_set_key_rejected :
    [exec (.setKey 0xfffffff1 16) keyed, exec (.setKey 0x1000 32) keyed, exec (.setKey 0x1000 15) busy].map
        (fun o => (after o).map fun t => t.rsps.map Rsp.status) =
      [some [.illegalCommand], some [.invalidKeyLength], some [.invalidKeyLength]] := by decide +kernel

/-- R142's example. -/
theorem test_encrypt_sync :
    (after (exec (.encryptCtrSync 0x2000 16 0x1010 16) keyed)).map
        (fun t => (Memory.readBytes t.mem 0x2000 16, Memory.readBytes t.mem 0x1010 16, t.rsps)) =
      some (nistCt0.toList, (hex 0xf0f1f2f3f4f5f6f7f8f9fafbfcfdff00).toList, [{ status := .ok, token := 0 }]) := by
  decide +kernel

/-- V11 rows 1, 11 and 12, and V11 row 20's hold. -/
theorem test_sync_checks :
    [exec (.encryptCtrSync 0x2000 64 0x1010 16) State.reset, exec (.encryptCtrSync 0xffffffc1 64 0x1010 16) keyed,
          exec (.decryptCtrSync 0x2000 64 0xfffffff1 16) keyed, exec (.encryptCtrSync 0x2000 64 0x1010 16) busy].map
        (fun o => (after o).map fun t => (t.rsps.map Rsp.status, t.port)) =
      [some ([.keyNotSet], .free), some ([.illegalCommand], .free), some ([.illegalCommand], .free),
        some ([], .held encSyncWord)] := by decide +kernel

/-- R143's example, from the ciphertext with the starting counter stored again. -/
theorem test_decrypt_sync :
    (after (exec (.decryptCtrSync 0x2000 16 0x1010 16)
          { keyed with mem := Memory.writeBytes nistMem 0x2000 nistCt0.toList })).map
        (fun t => Memory.readBytes t.mem 0x2000 16) = some nistPt0.toList := by decide +kernel

/-- P2 line 1. -/
theorem test_encrypt_async :
    (after (exec (.encryptCtrAsync 0x2000 20 0x1010 16 0x8000 0xa5a5) keyed)).map (fun t => (t.q, t.rsps, t.port)) =
      some ([p2Op], [{ status := .submitted, token := 0xa5a5 }], .free) := by decide +kernel

/-- V11 rows 2, 8, 18 and 19: the priority of the checks, the queue full at `QDEPTH = 1`. -/
theorem test_async_checks :
    [exec (.encryptCtrAsync 0x2000 0 0x1010 15 0x8000 1) State.reset, exec (.decryptCtrAsync 0x2000 64 0x1010 15 0x8000 2) keyed,
          exec (.encryptCtrAsync 0x2000 64 0x1010 15 0 0) { busy with plat := { busy.plat with qdepth := some 1 } },
          exec (.encryptCtrAsync 0x2000 64 0x1010 16 0 9) { busy with plat := { busy.plat with qdepth := some 1 } }].map
        (fun o => (after o).map fun t => t.rsps) =
      [some [⟨.keyNotSet, 0⟩], some [⟨.invalidCounterLength, 0⟩], some [⟨.invalidCounterLength, 0⟩],
        some [⟨.submissionRejected, 0⟩]] := by decide +kernel

/-- R145's example: the record's kind. -/
theorem test_decrypt_async :
    (after (exec (.decryptCtrAsync 0x2000 16 0x1010 16 0x8000 0xa5a5) keyed)).map (fun t => t.q.map fun p => p.kind) =
      some [.decrypt] := by decide +kernel

/-! ### Engine, host and reset -/

/-- P2 line 2. -/
theorem test_engine_start : after (engineStep busy) = some running := by decide +kernel

/-- P2 line 4: the second, partial chunk; the guard bytes stay. -/
theorem test_engine_partial_chunk :
    (after (engineStep { running with ctrw := 0xf0f1f2f3f4f5f6f7f8f9fafbfcfdff00, idx := 1 })).map
        (fun t => (Memory.readBytes t.mem 0x2010 8, t.ctrw, t.idx, t.eng)) =
      some ([0x98, 0x06, 0xf6, 0x6b, 0xee, 0xee, 0xee, 0xee], 0xf0f1f2f3f4f5f6f7f8f9fafbfcfdff01, 2, .run) := by decide +kernel

/-- P2 line 5. -/
theorem test_engine_finish :
    (after (engineStep { running with ctrw := 0xf0f1f2f3f4f5f6f7f8f9fafbfcfdff01, idx := 2 })).map
        (fun t => (Memory.readBytes t.mem 0x1010 16, t.eng, t.q, t.nlog)) =
      some ((hex 0xf0f1f2f3f4f5f6f7f8f9fafbfcfdff01).toList, .idle, [], [⟨0x8000, .encrypt, 0xa5a5⟩]) := by decide +kernel

/-- R54 (a), R31: a store to the last owned counter byte faults, one past it does not. -/
theorem test_ownership :
    faultOf (step { busy with turns := [.host], prog := [.store 0x101f [1]] }) = some .ownershipViolation ∧
      faultOf (step { busy with turns := [.host], prog := [.store 0x1020 [1]] }) = none := by decide +kernel

/-- R175: an unmapped key byte sets `FATAL`, and the command stays on the port without a response. -/
theorem test_fatal_fault :
    (after (exec (.setKey 0x1000 16) (withHole keyed 0x100f 1))).map (fun t => (t.fatal, t.port, t.rsps, t.keyValid)) =
      some (true, .held setKeyWord, [], true) := by decide +kernel

/-- R190, R191: a reset with an operation running. -/
theorem test_reset_event :
    (after (step { running with turns := [.reset] })).map (fun t => (t.keyValid, t.eng, t.q, t.nlog)) =
        some (false, .idle, [], []) ∧
      (after (step { running with turns := [.reset] })).map (fun t => t.mem) = some nistMem := by decide +kernel

/-! ### Hypotheses that can be met

For every statement with hypotheses, values that meet them together, one theorem per statement, each clause at a boundary
value of its range. `Claims.*` and the state helpers are those of the statements. -/

theorem mapped_default {x : Nat} (h : x < memSize) : Platform.mapped State.reset.plat x = true := by
  simp [Platform.mapped, State.reset, Platform.default, h]

/-- An operation whose regions end at or below 2^32 touches mapped bytes only, when everything is mapped. -/
theorem mapped_of_touches {p : Op} (hb : p.buf.toNat + p.len.toNat ≤ memSize) (hc : p.ctr.toNat + 16 ≤ memSize) (x : Nat)
    (h : touches p x) : Platform.mapped State.reset.plat x = true := by
  refine mapped_default ?_
  rcases h with h | h <;> omega

theorem queueInv_reset : State.reset.QueueInv :=
  ⟨by decide, fun _ _ => Nat.zero_le _, by decide, by decide, by decide, by decide⟩

theorem queueInv_running : running.QueueInv := by
  refine ⟨by decide, ?_, by decide +kernel, by decide, fun _ p hp => ?_, by decide⟩
  · rintro d ⟨⟩
    decide
  · obtain rfl : p2Op = p := Option.some.inj hp
    decide

theorem queueInv_busy : busy.QueueInv := by
  refine ⟨by decide, ?_, by decide +kernel, by decide, fun h => ?_, by decide⟩
  · rintro d ⟨⟩
    decide
  · exact absurd h (by decide)

theorem test_hyp_DecodeEncodeInverse : decode decAsyncWord = .ok (.decryptCtrAsync 0x2000 64 0x1010 16 0x8000 0x5a5a) := by decide

theorem test_hyp_MaskMatchSelectsCommand :
    ∃ r ∈ maskRows, r.selects setKeyWord = true ∧ decode setKeyWord = .ok (.setKey 0x1000 16) :=
  ⟨_, List.mem_cons_self, by decide, by decide⟩

theorem test_hyp_DecodeFollowsSteps :
    (∃ w, ¬ ((Cmd.ofDesc w).rsv0 = 0 ∧ (Cmd.ofDesc w).rsv1 = 0)) ∧
    (∃ w, (Cmd.ofDesc w).reservedZero = true ∧ (Cmd.ofDesc w).opc ∉ [0x01, 0x10, 0x11, 0x12, 0x13]) ∧
    (∃ w, (Cmd.ofDesc w).reservedZero = true ∧ (Cmd.ofDesc w).opc ∈ [0x01, 0x10, 0x11, 0x12, 0x13] ∧
      (Cmd.ofDesc w).unusedZero = false) ∧
    (∃ w, (Cmd.ofDesc w).legal = true) ∧ ∃ w e, decode w = .error e :=
  ⟨⟨0x101, by decide⟩, ⟨0x14, by decide⟩,
    ⟨0x0000000000000007000000000000000000000000000000100000100000000001, by decide⟩, ⟨setKeyWord, by decide⟩,
    0x00, .reservedOpcode, by decide⟩

theorem test_hyp_StepRunsPresentedCommand :
    decode setKeyWord = .ok (.setKey 0x1000 16) ∧
    (∃ s : State, s.fatal = false ∧ s.port = .free ∧ s.turns = [.host] ∧ s.prog = [.command setKeyWord]) ∧
    (∃ s : State, s.fatal = false ∧ s.port = .held setKeyWord ∧ s.turns = [.host]) ∧
    ∃ s : State, s.fatal = false ∧ s.port = .free ∧ s.turns = [] ∧ s.q = [] ∧ s.prog = [.command setKeyWord] :=
  ⟨by decide, ⟨{ keyed with turns := [.host], prog := [.command setKeyWord] }, by decide⟩,
    ⟨{ keyed with turns := [.host], port := .held setKeyWord }, by decide⟩,
    ⟨{ keyed with prog := [.command setKeyWord] }, by decide⟩⟩

theorem test_hyp_StepMovesOneAgent :
    ∃ a b c d : State, a.turns = [.host] ∧ b.turns = [.engine] ∧ c.turns = [.reset] ∧ d.turns = [] :=
  ⟨{ busy with turns := [.host] }, { busy with turns := [.engine] }, { busy with turns := [.reset] }, busy, by decide⟩

theorem test_hyp_IllegalDescriptorHasNoEffect :
    ∃ s : State, s.fatal = false ∧ s.port = .free ∧ s.turns = [.host] ∧ s.prog = [.command 0x14, .command 0x101] ∧
      (Cmd.ofDesc 0x14).opc ∉ [0x01, 0x10, 0x11, 0x12, 0x13] ∧ (Cmd.ofDesc 0x101).legal = false :=
  ⟨{ busy with turns := [.host], prog := [.command 0x14, .command 0x101] }, by decide⟩

theorem test_hyp_KeyWordsFollowRecurrence :
    (4 ≤ 4 ∧ 4 < 44 ∧ 4 % 4 = 0) ∧ (4 ≤ 43 ∧ 43 < 44 ∧ 43 % 4 ≠ 0) := by decide

theorem test_hyp_RoundConstants : (1 ≤ 1 ∧ 1 ≤ 10) ∧ (1 ≤ 10 ∧ 10 ≤ 10) ∧ 40 % 4 = 0 := by decide

theorem test_hyp_FieldMultiplication :
    (0x7f : Byte).toNat < 0x80 ∧ ¬ (0x80 : Byte).toNat < 0x80 ∧ 7 < 8 ∧ (0x01 : Byte) ≠ 0 := by decide

theorem test_hyp_CtrProcessByByte : 16 < (nistPt0.toList ++ [0xae]).length := by decide +kernel

theorem test_hyp_CtrProcessSplits : nistPt0.toList.length = 16 * 1 ∧ ([] : List Byte).length = 16 * 0 := by decide +kernel

theorem test_hyp_AccessPrimitives :
    (0xfffffff0 + 16 ≤ memSize ∧ (∀ k, k < 16 → Platform.mapped State.reset.plat (0xfffffff0 + k) = true) ∧
      16 ≤ nistKey.toList.length ∧ Memory.wf keyed.mem) ∧
    (memSize + 0 ≤ memSize ∧ ∀ k, k < 0 → Platform.mapped State.reset.plat (memSize + k) = true) ∧
    ∃ k, k < 16 ∧ Platform.mapped (withHole keyed 0xffffffff 1).plat (0xfffffff0 + k) = false :=
  ⟨⟨by decide, fun _ h => mapped_default (by unfold memSize; omega), by decide +kernel, by decide +kernel⟩,
    ⟨by decide, fun _ h => absurd h (Nat.not_lt_zero _)⟩, 15, by decide +kernel⟩

theorem test_hyp_SetKeyInstalls :
    ∃ (a0 : Word) (s : State), a0.toNat + 16 ≤ memSize ∧ s.q = [] ∧
      ∀ k, k < 16 → Platform.mapped s.plat (a0.toNat + k) = true :=
  ⟨0xfffffff0, State.reset, by decide, by decide,
    fun k h => mapped_default (show 4294967280 + k < 4294967296 by omega)⟩

theorem test_hyp_SetKeyOtherwise :
    (∃ l0 : Word, l0 ≠ 16) ∧ (∃ a0 : Word, memSize < a0.toNat + 16) ∧
    (∃ (a0 : Word) (s : State), a0.toNat + 16 ≤ memSize ∧ s.q ≠ []) ∧
    ∃ (a0 : Word) (s : State), a0.toNat + 16 ≤ memSize ∧ s.q = [] ∧
      ∃ k, k < 16 ∧ Platform.mapped s.plat (a0.toNat + k) = false :=
  ⟨⟨15, by decide⟩, ⟨0xfffffff1, by decide⟩, ⟨0xfffffff0, busy, by decide⟩,
    ⟨0xfffffff0, withHole keyed 0xffffffff 1, by decide, by decide, 15, by decide +kernel⟩⟩

theorem test_hyp_SetKeyFrame : ∃ t, exec (.setKey 0x1000 15) keyed = .next t := ⟨_, rfl⟩

theorem test_hyp_TransformValidation :
    (∃ s : State, s.keyValid = false) ∧
    (∃ (s : State) (l1 : Word), s.keyValid = true ∧ l1 ≠ 16) ∧
    (∃ (s : State) (a0 l0 : Word), s.keyValid = true ∧ memSize < a0.toNat + l0.toNat) ∧
    (∃ (s : State) (a1 : Word), s.keyValid = true ∧ memSize < a1.toNat + 16) ∧
    (∃ (s : State) (a0 l0 a1 : Word), s.keyValid = true ∧ a0.toNat + l0.toNat ≤ memSize ∧ a1.toNat + 16 ≤ memSize ∧
      ∃ d, s.plat.qdepth = some d ∧ d ≤ s.q.length) ∧
    ∃ w e, decode w = .error e :=
  ⟨⟨State.reset, by decide⟩, ⟨keyed, 17, by decide⟩, ⟨keyed, 0xffffffc1, 64, by decide⟩, ⟨keyed, 0xfffffff1, by decide⟩,
    ⟨{ busy with plat := { busy.plat with qdepth := some 1 } }, 0xffffffc0, 64, 0xfffffff0, by decide, by decide, by decide, 1,
      by decide⟩,
    ⟨0x14, .reservedOpcode, by decide⟩⟩

theorem test_hyp_SyncTransformCompletes :
    (∃ i ∈ syncCommands 0xfffffff0 16 0xfffffff0 16, i = .encryptCtrSync 0xfffffff0 16 0xfffffff0 16) ∧
    ∀ l0 : Word, l0 = 16 ∨ l0 = 0 →
      Memory.wf keyed.mem ∧ keyed.keyValid = true ∧ keyed.q = [] ∧ (0xfffffff0 : Word).toNat + l0.toNat ≤ memSize ∧
        (0xfffffff0 : Word).toNat + 16 ≤ memSize ∧
        ∀ x, touches (opOf 0xfffffff0 l0 0xfffffff0) x → Platform.mapped keyed.plat x = true := by
  refine ⟨⟨_, List.mem_cons_self, rfl⟩, fun l0 h => ⟨by decide +kernel, by decide, by decide, ?_, by decide, ?_⟩⟩
  · rcases h with rfl | rfl <;> decide
  · refine mapped_of_touches (p := opOf 0xfffffff0 l0 0xfffffff0) ?_ (show 4294967280 + 16 ≤ memSize by decide)
    rcases h with rfl | rfl <;> decide

theorem test_hyp_SyncTransformHeld :
    ∃ (a0 l0 a1 : Word) (s : State), s.keyValid = true ∧ a0.toNat + l0.toNat ≤ memSize ∧ a1.toNat + 16 ≤ memSize ∧ s.q ≠ [] :=
  ⟨0xfffffff0, 16, 0xfffffff0, busy, by decide⟩

/-- An unmapped counter byte, and an unmapped byte in the second chunk with the counter mapped. -/
theorem test_hyp_SyncTransformFatalFault :
    (∃ s : State, Memory.wf s.mem ∧ s.keyValid = true ∧ s.q = [] ∧
      (∃ x, touches (opOf 0x2000 20 0x1010) x ∧ Platform.mapped s.plat x = false) ∧
      ∃ k, k < 16 ∧ Platform.mapped s.plat (0x1010 + k) = false) ∧
    ∃ s : State, Memory.wf s.mem ∧ s.keyValid = true ∧ s.q = [] ∧
      (∃ x, touches (opOf 0x2000 20 0x1010) x ∧ Platform.mapped s.plat x = false) ∧
      ∀ k, k < 16 → Platform.mapped s.plat (0x1010 + k) = true :=
  ⟨⟨withHole keyed 0x101f 1, by decide +kernel, by decide, by decide,
      ⟨0x101f, .inr (by decide), by decide +kernel⟩, 15, by decide +kernel⟩,
    ⟨withHole keyed 0x2013 1, by decide +kernel, by decide, by decide,
      ⟨0x2013, .inl (by decide), by decide +kernel⟩, by decide +kernel⟩⟩

theorem test_hyp_SyncTransformFrame :
    (∃ t, exec (.decryptCtrSync 0x2000 0 0x1010 16) busy = .next t) ∧ ¬ touches (opOf 0x2000 20 0x1010) 0x2014 ∧
      ¬ touches (opOf 0x2000 0 0x1010) 0x1010 := by
  refine ⟨⟨_, rfl⟩, ?_, ?_⟩ <;> (unfold touches; decide)

theorem test_hyp_KindChangesNothing : ∃ t, exec (.encryptCtrSync 0x2000 0 0x1010 15) keyed = .next t ∧ t.port = .free :=
  ⟨_, rfl, rfl⟩

theorem test_hyp_AsyncTransformSubmits :
    ∃ (a0 l0 a1 : Word), a0.toNat + l0.toNat ≤ memSize ∧ a1.toNat + 16 ≤ memSize ∧
      (∃ s : State, s.keyValid = true ∧ s.q.length = 1 ∧ ∀ d, s.plat.qdepth = some d → s.q.length < d) ∧
      ∃ s : State, s.keyValid = true ∧ s.plat.qdepth = none ∧ ∀ d, s.plat.qdepth = some d → s.q.length < d := by
  refine ⟨0xffffffff, 1, 0xfffffff0, by decide, by decide,
    ⟨{ busy with plat := { busy.plat with qdepth := some 2 } }, by decide, by decide, ?_⟩,
    ⟨{ busy with plat := { busy.plat with qdepth := none } }, by decide, by decide, ?_⟩⟩ <;>
  · rintro d ⟨⟩
    try decide

theorem test_hyp_RejectionChangesNothing :
    ∃ t r, runCommand 0x14 busy = .next t ∧ t.rsps = busy.rsps ++ [r] ∧ Status.code r.status < 0 :=
  ⟨_, { status := .illegalCommand, token := 0 }, rfl, rfl, by decide⟩

theorem test_hyp_EngineStart :
    (∃ s : State, s.fatal = false ∧ s.eng = .idle ∧ s.q = [emptyOp] ∧ emptyOp.len = 0) ∧
    (busy.fatal = false ∧ busy.eng = .idle ∧ busy.q = [p2Op] ∧ p2Op.len ≠ 0 ∧
      ∀ k, k < 16 → Platform.mapped busy.plat (p2Op.ctr.toNat + k) = true) ∧
    ∃ s : State, s.fatal = false ∧ s.eng = .idle ∧ s.q = [p2Op] ∧ p2Op.len ≠ 0 ∧
      ∃ k, k < 16 ∧ Platform.mapped s.plat (p2Op.ctr.toNat + k) = false :=
  ⟨⟨{ keyed with q := [emptyOp] }, by decide⟩, ⟨by decide, by decide, by decide, by decide, by decide +kernel⟩,
    ⟨withHole busy 0x101f 1, by decide, by decide, by decide, by decide, 15, by decide +kernel⟩⟩

/-- The last chunk of P2, 4 bytes long. -/
theorem test_hyp_EngineChunk :
    (∃ s : State, s.fatal = false ∧ s.eng = .run ∧ s.q = [p2Op] ∧ s.idx < (p2Op.len.toNat + 15) / 16 ∧ Memory.wf s.mem ∧
      ∀ k, k < min 16 (p2Op.len.toNat - 16 * s.idx) → Platform.mapped s.plat (p2Op.buf.toNat + 16 * s.idx + k) = true) ∧
    ∃ s : State, s.fatal = false ∧ s.eng = .run ∧ s.q = [p2Op] ∧ s.idx < (p2Op.len.toNat + 15) / 16 ∧ Memory.wf s.mem ∧
      ∃ k, k < min 16 (p2Op.len.toNat - 16 * s.idx) ∧ Platform.mapped s.plat (p2Op.buf.toNat + 16 * s.idx + k) = false :=
  ⟨⟨{ running with idx := 1 }, by decide, by decide, by decide, by decide, by decide +kernel, by decide +kernel⟩,
    ⟨withHole { running with idx := 1 } 0x2013 1, by decide, by decide, by decide, by decide, by decide +kernel, 3,
      by decide +kernel⟩⟩

theorem test_hyp_EngineFinish :
    (∃ s : State, s.fatal = false ∧ s.eng = .run ∧ s.q = [emptyOp] ∧ s.idx = (emptyOp.len.toNat + 15) / 16 ∧
      Memory.wf s.mem ∧ emptyOp.len = 0) ∧
    (∃ s : State, s.fatal = false ∧ s.eng = .run ∧ s.q = [p2Op] ∧ s.idx = (p2Op.len.toNat + 15) / 16 ∧ Memory.wf s.mem ∧
      p2Op.len ≠ 0 ∧ ∀ k, k < 16 → Platform.mapped s.plat (p2Op.ctr.toNat + k) = true) ∧
    ∃ s : State, s.fatal = false ∧ s.eng = .run ∧ s.q = [p2Op] ∧ s.idx = (p2Op.len.toNat + 15) / 16 ∧ Memory.wf s.mem ∧
      p2Op.len ≠ 0 ∧ ∃ k, k < 16 ∧ Platform.mapped s.plat (p2Op.ctr.toNat + k) = false :=
  ⟨⟨{ keyed with q := [emptyOp], eng := .run }, by decide, by decide, by decide, by decide, by decide +kernel, by decide⟩,
    ⟨{ running with idx := 2 }, by decide, by decide, by decide, by decide, by decide +kernel, by decide, by decide +kernel⟩,
    ⟨withHole { running with idx := 2 } 0x101f 1, by decide, by decide, by decide, by decide, by decide +kernel, by decide, 15,
      by decide +kernel⟩⟩

theorem test_hyp_EngineFrame :
    (∃ t, engineStep { keyed with q := [emptyOp] } = .next t) ∧ ¬ touches emptyOp.toOp 0x1010 ∧
      ∃ t, engineStep State.reset = .next t := by
  refine ⟨⟨_, rfl⟩, ?_, _, rfl⟩
  unfold touches
  decide

theorem test_hyp_EngineProgress :
    (busy.QueueInv ∧ busy.fatal = false ∧ busy.q = [p2Op]) ∧ running.QueueInv ∧ running.fatal = false ∧ running.q = [p2Op] :=
  ⟨⟨queueInv_busy, by decide, by decide⟩, queueInv_running, by decide, by decide⟩

theorem test_hyp_QueueDrains :
    ∃ s : State, s.QueueInv ∧ s.fatal = false ∧ s.eng = .idle ∧ s.plat.holes = [] ∧ s.q = [p2Op] ∧
      s.turns = List.replicate (s.q.map fun p => (p.len.toNat + 15) / 16 + 2).sum .engine ++ [.host] :=
  ⟨{ busy with turns := [.engine, .engine, .engine, .engine, .host] },
    ⟨queueInv_busy.1, queueInv_busy.2, queueInv_busy.3, queueInv_busy.4, queueInv_busy.5, queueInv_busy.6⟩, by decide, by decide,
    by decide, by decide, by decide⟩

/-- An operation without data, and P2's of 20 bytes. -/
theorem test_hyp_AsyncOperationCompletes :
    (∃ s t : State, s.fatal = false ∧ s.eng = .idle ∧ s.q = [emptyOp] ∧
      s.turns = List.replicate ((emptyOp.len.toNat + 15) / 16 + 2) .engine ++ [] ∧ ctrRun emptyOp.toOp s = .ok t) ∧
    ∃ s t : State, s.fatal = false ∧ s.eng = .idle ∧ s.q = [p2Op] ∧
      s.turns = List.replicate ((p2Op.len.toNat + 15) / 16 + 2) .engine ++ [] ∧ ctrRun p2Op.toOp s = .ok t := by
  refine ⟨⟨{ keyed with q := [emptyOp], turns := [.engine, .engine] }, _, by decide, by decide, by decide, by decide, rfl⟩,
    { busy with turns := [.engine, .engine, .engine, .engine] }, ?_⟩
  have h : (ctrRun p2Op.toOp { busy with turns := [.engine, .engine, .engine, .engine] }).isOk = true := by decide +kernel
  cases hs : ctrRun p2Op.toOp { busy with turns := [.engine, .engine, .engine, .engine] } with
  | ok t => exact ⟨t, by decide, by decide, by decide, by decide, rfl⟩
  | error t =>
    rw [hs] at h
    simp [Except.isOk, Except.toBool] at h

theorem test_hyp_CtrRunIsCtrProcess :
    Memory.wf keyed.mem ∧ ∀ x, touches (opOf 0xfffffff0 16 0xfffffff0) x → Platform.mapped keyed.plat x = true :=
  ⟨by decide +kernel, mapped_of_touches (p := opOf 0xfffffff0 16 0xfffffff0) (by decide) (by decide)⟩

theorem test_hyp_FatalStopsBlock :
    (∃ s t : State, s.fatal = true ∧ s.turn ≠ .reset ∧ step s = .next t ∧ s.port ≠ .free) ∧
    ∃ s t : State, s.fatal = true ∧ s.turn ≠ .reset ∧ step s = .next t ∧ s.port = .free :=
  ⟨⟨{ keyed with fatal := true, turns := [.host], port := .held setKeyWord }, _, by decide, by decide, rfl, by decide⟩,
    ⟨{ keyed with fatal := true, turns := [.host], prog := [.load 0x1000 1] }, _, by decide, by decide, rfl, by decide⟩⟩

theorem test_hyp_OnlySetKeyWritesKey :
    (∃ s t : State, s.turn ≠ .reset ∧ step s = .next t) ∧
    ∃ s t : State, s.turn ≠ .reset ∧ step s = .next t ∧ s.keyValid = false ∧ t.keyValid = true := by
  refine ⟨⟨keyed, _, by decide, rfl⟩, ?_⟩
  have h : ((after (step { State.reset with prog := [.command setKeyWord] })).map fun t => t.keyValid) = some true := by
    decide +kernel
  cases hs : step { State.reset with prog := [.command setKeyWord] } with
  | next t => exact ⟨_, t, by decide, hs, by decide, by rw [hs] at h; exact Option.some.inj h⟩
  | fault f => rw [hs] at h; simp [after] at h
  | refused f => rw [hs] at h; simp [after] at h

theorem test_hyp_QueueChanges :
    (∃ s t : State, s.turn ≠ .reset ∧ step s = .next t ∧ t.q = s.q) ∧
    ∃ s t : State, s.turn ≠ .reset ∧ step s = .next t ∧ s.q = [emptyOp] ∧ t.q = [] :=
  ⟨⟨keyed, _, by decide, rfl, rfl⟩, ⟨{ keyed with q := [emptyOp], eng := .run }, _, by decide, rfl, rfl, rfl⟩⟩

/-- A load, a store past the top, and the last counter byte of P2's operation, which lies outside the buffer that the engine's
turn transforms. -/
theorem test_hyp_PortsRevealNoKey :
    (∃ t, step { keyed with prog := [.load 0xffffffff 1] } = .next t) ∧
      (∃ f, step { keyed with prog := [.load 0xffffffff 2] } = .fault f) ∧
      (∃ t, step { keyed with q := [emptyOp] } = .next t) ∧ Memory.wf busy.mem ∧ mayTransform busy p2Op.toOp ∧
      ∀ p, mayTransform busy p → ¬ (p.buf.toNat ≤ 0x101f ∧ 0x101f < p.buf.toNat + p.len.toNat) := by
  refine ⟨⟨_, rfl⟩, ⟨_, rfl⟩, ⟨_, rfl⟩, by decide +kernel, .inl ⟨by decide, p2Op, rfl, rfl⟩, ?_⟩
  rintro p (⟨-, r, hr, rfl⟩ | ⟨ht, -⟩)
  · obtain rfl : p2Op = r := Option.some.inj hr
    decide
  · exact absurd ht (by decide)

theorem test_hyp_OnlyHostAccessesFault :
    step { keyed with prog := [.load 0xffffffff 2] } = .fault .outsideMemory ∧
      step { keyed with prog := [.store 0xffffffff [1, 2]] } = .fault .outsideMemory ∧
      step { busy with turns := [.host], prog := [.store 0x2013 [1]] } = .fault .ownershipViolation := ⟨rfl, rfl, rfl⟩

/-- A load that ends at 2^32, a load of an owned and of an unowned byte, and a store that ends at 2^32. -/
theorem test_hyp_HostAccess :
    (∃ s : State, s.port = .free ∧ s.turns = [.host] ∧ s.prog = [.load 0xffffffff 1] ∧ (0xffffffff : Word).toNat + 1 ≤ memSize) ∧
    (∃ s : State, s.port = .free ∧ s.turns = [.host] ∧ s.prog = [.load 0x2013 2] ∧ owned s.q 0x2013 = true ∧
      owned s.q 0x2014 = false) ∧
    ∃ s : State, s.port = .free ∧ s.turns = [.host] ∧ s.prog = [.store 0xffffffff [1]] ∧
      (0xffffffff : Word).toNat + 1 ≤ memSize ∧ Memory.wf s.mem ∧
      ∀ k, k < 1 → owned s.q ((0xffffffff : Word).toNat + k) = false :=
  ⟨⟨{ busy with turns := [.host], prog := [.load 0xffffffff 1] }, by decide⟩,
    ⟨{ busy with turns := [.host], prog := [.load 0x2013 2] }, by decide +kernel⟩,
    ⟨{ busy with turns := [.host], prog := [.store 0xffffffff [1]] }, by decide, by decide, by decide, by decide,
      by decide +kernel, by decide +kernel⟩⟩

theorem test_hyp_ResetEvent : ∃ s : State, s.turns = [.reset] ∧ s.q = [p2Op] ∧ s.fatal = true :=
  ⟨{ running with turns := [.reset], fatal := true }, by decide⟩

theorem test_hyp_InputsAndParameters :
    ∃ s t : State, step s = .next t ∧ s.turns = [.host] ∧ s.prog = [.load 0x1000 1] ∧ t.prog = [] :=
  ⟨{ keyed with turns := [.host], prog := [.load 0x1000 1] }, _, rfl, rfl, rfl, rfl⟩

/-- A step from the state that each invariant holds in: a finish step of an operation without data, and a held command. -/
theorem test_hyp_StepKeepsMemory : ∃ s t : State, s.MemInv ∧ step s = .next t ∧ s.mem ≠ [] :=
  ⟨keyed, _, ⟨by decide +kernel, by decide +kernel⟩, rfl, by decide +kernel⟩

theorem test_hyp_StepKeepsQueue : ∃ s t : State, s.QueueInv ∧ step s = .next t ∧ s.eng = .run := by
  refine ⟨{ keyed with q := [emptyOp], eng := .run }, _, ⟨by decide, ?_, by decide +kernel, by decide, ?_, by decide⟩, rfl, rfl⟩
  · rintro d ⟨⟩
    decide
  · exact fun _ p hp => Nat.zero_le _

theorem test_hyp_StepKeepsPort : ∃ s t : State, s.PortInv ∧ step s = .next t ∧ s.port = .held encSyncWord := by
  refine ⟨{ busy with turns := [.host], port := .held encSyncWord }, _, fun w hw => ?_, rfl, rfl⟩
  obtain rfl := Port.held.inj hw
  decide +kernel

theorem test_hyp_StepKeepsKeySchedule : ∃ s t : State, s.KeyInv ∧ step s = .next t ∧ s.keyValid = true :=
  ⟨keyed, _, fun _ => ⟨nistKey, test_key_expansion.symm⟩, rfl, rfl⟩

theorem test_hyp_StepKeepsExactlyOnce : ∃ s t : State, s.TraceInv ∧ step s = .next t ∧ s.q = [emptyOp] := by
  refine ⟨{ keyed with q := [emptyOp], eng := .run, rsps := [⟨.ok, 0⟩, ⟨.submitted, 3⟩] }, _, ?_, rfl, rfl⟩
  unfold State.TraceInv
  decide +kernel

end Sys2Proof.Tests
end

section
/-!
PROOFS. The counter bytes (spec/00_scope.md R10): `be128` is the base-256 value of a byte string, and on 16 bytes it and
`bytes128` are inverse to each other.
-/

namespace Sys2Proof.Machine

/-- The number that `be128` takes modulo `2^128`: a byte string in base 256, byte 0 most significant. -/
def beValue (bs : List Byte) : Nat := bs.foldl (fun n b => n * 256 + b.toNat) 0

theorem be128_eq_beValue (bs : List Byte) : be128 bs = BitVec.ofNat 128 (beValue bs) := rfl

@[simp] theorem beValue_nil : beValue [] = 0 := rfl

@[simp] theorem beValue_concat (bs : List Byte) (b : Byte) : beValue (bs ++ [b]) = beValue bs * 256 + b.toNat := by
  simp [beValue]

theorem beValue_append (as bs : List Byte) : beValue (as ++ bs) = beValue as * 256 ^ bs.length + beValue bs := by
  induction bs using List.reverseRecOn with
  | nil => simp
  | append_singleton bs b ih =>
    rw [← List.append_assoc, beValue_concat, beValue_concat, ih, List.length_append, List.length_singleton]
    ring

theorem beValue_cons (b : Byte) (bs : List Byte) : beValue (b :: bs) = b.toNat * 256 ^ bs.length + beValue bs := by
  simpa [beValue] using beValue_append [b] bs

theorem beValue_lt (bs : List Byte) : beValue bs < 256 ^ bs.length := by
  induction bs using List.reverseRecOn with
  | nil => simp
  | append_singleton bs b ih =>
    have hb := b.isLt
    rw [beValue_concat, List.length_append, List.length_singleton, pow_succ]
    omega

/-- The weighted sum of R10, for a byte string of any length. -/
theorem beValue_eq_sum (bs : List Byte) :
    beValue bs = ((List.range bs.length).map fun i => (bs.getD i 0).toNat * 256 ^ (bs.length - 1 - i)).sum := by
  induction bs with
  | nil => rfl
  | cons b bs ih =>
    rw [beValue_cons, ih, List.length_cons, List.range_succ_eq_map, List.map_cons, List.sum_cons, List.map_map]
    simp [Function.comp_def, Nat.sub_sub, Nat.add_comm 1]

/-- Byte `j` is read off the value by dropping the bytes after it. -/
theorem beValue_div_mod (bs : List Byte) (j : Nat) (hj : j < bs.length) :
    beValue bs / 256 ^ (bs.length - 1 - j) % 256 = bs[j].toNat := by
  have hlen : (bs.drop (j + 1)).length = bs.length - 1 - j := by simp; omega
  have hlow := beValue_lt (bs.drop (j + 1))
  have hsplit : beValue bs =
      beValue (bs.take (j + 1)) * 256 ^ (bs.length - 1 - j) + beValue (bs.drop (j + 1)) := by
    rw [← hlen, ← beValue_append, List.take_append_drop]
  rw [hlen] at hlow
  rw [hsplit, Nat.add_comm, Nat.add_mul_div_right _ _ (by positivity), Nat.div_eq_of_lt hlow, zero_add,
    List.take_succ_eq_append_getElem hj, beValue_concat]
  have hb := bs[j].isLt
  omega

/-- `be128` of at most 16 bytes does not wrap. -/
theorem be128_toNat {bs : List Byte} (h : bs.length ≤ 16) : (be128 bs).toNat = beValue bs := by
  have hlt : beValue bs < 2 ^ 128 :=
    calc beValue bs < 256 ^ bs.length := beValue_lt bs
      _ ≤ 256 ^ 16 := Nat.pow_le_pow_right (by decide) h
      _ = 2 ^ 128 := by norm_num
  rw [be128_eq_beValue, BitVec.toNat_ofNat, Nat.mod_eq_of_lt hlt]

@[simp] theorem bytes128_getElem (c : BitVec 128) (j : Nat) (hj : j < 16) :
    (bytes128 c)[j] = c.extractLsb' (8 * (15 - j)) 8 := by
  simp [bytes128]

theorem bytes128_injective : Function.Injective bytes128 := by
  intro c d h
  refine BitVec.eq_of_getLsbD_eq fun i hi => ?_
  -- bit `i` is bit `i % 8` of byte `15 - i / 8`
  have hbyte : (bytes128 c)[15 - i / 8] = (bytes128 d)[15 - i / 8] := by rw [h]
  have hbit := congrArg (·.getLsbD (i % 8)) hbyte
  have hi' : 8 * (15 - (15 - i / 8)) + i % 8 = i := by omega
  simpa [BitVec.getLsbD_extractLsb', Nat.mod_lt, hi'] using hbit

theorem bytes128_be128 (b : Block) : bytes128 (be128 b.toList) = b := by
  refine Vector.ext fun j hj => BitVec.eq_of_toNat_eq ?_
  have hbyte := beValue_div_mod b.toList j (by simpa using hj)
  simp only [Vector.length_toList, Vector.getElem_toList] at hbyte
  rw [bytes128_getElem, BitVec.extractLsb'_toNat, be128_toNat (by simp), Nat.shiftRight_eq_div_pow, pow_mul]
  exact hbyte

theorem be128_bytes128 (c : BitVec 128) : be128 (bytes128 c).toList = c :=
  bytes128_injective (bytes128_be128 (bytes128 c))

/-- Settles O18: the sum is `beValue`'s, and the two inverse directions are `be128_bytes128` and `bytes128_be128`. -/
theorem counterBytesInverse : Obligations.CounterBytesInverse := by
  refine ⟨fun b => ?_, be128_bytes128, bytes128_be128⟩
  rw [be128_toNat (by simp), beValue_eq_sum, Vector.length_toList]

end Sys2Proof.Machine
end

section
/-!
PROOFS. The parameters and the model's inputs (spec/00_scope.md R7, spec/10_state.md R32; log entries 3 and 4): no command
and no engine step writes them; a step takes its turn, and the host its action, before anything else happens.
-/

namespace Sys2Proof.Machine

/-- What no command and no engine step writes: the parameters, the remaining turns and the host's remaining actions. -/
def State.inputs (s : State) : Platform × List Turn × List HostAct := (s.plat, s.turns, s.prog)

theorem State.inputs_eq_iff {s t : State} :
    t.inputs = s.inputs ↔ t.plat = s.plat ∧ t.turns = s.turns ∧ t.prog = s.prog := by
  simp [State.inputs]

theorem OpFrame.inputs_eq {p : Op} {s t : State} (h : OpFrame p s t) : t.inputs = s.inputs := by
  rw [h.regs]
  rfl

theorem CommandStep.inputs_eq {w : Desc} {s t : State} (h : CommandStep w s t) : t.inputs = s.inputs := by
  cases h with
  | rejected | held | installed | keyFault | submitted => rfl
  | transformed _ _ _ _ ran => exact (ctrRun_ok ran).1.inputs_eq
  | transformFault _ _ _ _ ran => exact (ctrRun_error ran).1.inputs_eq

theorem EngineMove.inputs_eq {s t : State} (h : EngineMove s t) : t.inputs = s.inputs := by
  cases h with
  | none | fault => rfl
  | start _ _ _ _ _ _ ran => exact (opStart_ok ran).1.inputs_eq
  | chunk _ _ _ _ _ _ _ ran => exact (opChunk_ok ran).1.inputs_eq
  | finish _ _ _ _ _ _ _ ran => exact (opFinish_ok ran).1.inputs_eq

/-- A move leaves the parameters and the turns; only a host move that starts an action takes one from the host's list. -/
theorem Move.inputs {r t : State} {a : Turn} (h : Move r a t) :
    t.plat = r.plat ∧ t.turns = r.turns ∧ (t.prog = r.prog ∨ a = .host ∧ t.prog = r.prog.tail) := by
  cases h with
  | reset | wait => exact ⟨rfl, rfl, .inl rfl⟩
  | engine _ move =>
    obtain ⟨hplat, hturns, hprog⟩ := State.inputs_eq_iff.1 move.inputs_eq
    exact ⟨hplat, hturns, .inl hprog⟩
  | resumed _ _ _ _ ran =>
    obtain ⟨hplat, hturns, hprog⟩ := State.inputs_eq_iff.1 ran.inputs_eq
    exact ⟨hplat, hturns, .inl hprog⟩
  | presented _ _ _ _ prog _ ran =>
    obtain ⟨hplat, hturns, hprog⟩ := State.inputs_eq_iff.1 ran.inputs_eq
    exact ⟨hplat, hturns, .inr ⟨rfl, by simp [hprog, prog]⟩⟩
  | load _ _ _ _ prog | store _ _ _ _ prog => exact ⟨rfl, rfl, .inr ⟨rfl, by simp [prog]⟩⟩

/-- Settles O54, by cases on the moves of a step from the state with the turn taken. -/
theorem inputsAndParameters : Obligations.InputsAndParameters :=
  fun _ _ h => (step_move h).inputs

end Sys2Proof.Machine
end

section
/-!
PROOFS. The queue and engine invariants (spec/10_state.md R24, R27, R29; spec/20_memory.md R43; spec/41_block_cipher.md R107):
every command, every engine step and every step of the machine keeps them.
-/

namespace Sys2Proof.Machine

/-- What the queue and engine invariants read of a state. -/
def State.queueView (s : State) : Phase × Platform × List Pending × Bool × Nat :=
  (s.eng, s.plat, s.q, s.keyValid, s.idx)

theorem State.QueueInv.congr {s t : State} (h : s.QueueInv) (hv : t.queueView = s.queueView) : t.QueueInv := by
  simp only [State.queueView, Prod.mk.injEq] at hv
  obtain ⟨heng, hplat, hq, hkey, hidx⟩ := hv
  exact {
    runHead := by simpa only [heng, hq] using h.runHead
    bounded := by simpa only [hplat, hq] using h.bounded
    regions := by simpa only [hq] using h.regions
    keyed := by simpa only [hq, hkey] using h.keyed
    progress := by simpa only [heng, hq, hidx] using h.progress
    idxBounded := by simpa only [hidx] using h.idxBounded }

/-- With nothing outstanding the invariants only say that the engine is idle and bound `IDX`. -/
theorem State.queueInv_of_quiescent {s : State} (hs : s.Quiescent) (hidx : s.idx ≤ 268435456) : s.QueueInv := by
  obtain ⟨hq, heng⟩ := hs
  constructor <;> simp [hq, heng, hidx]

theorem State.QueueInv.quiescent {s : State} (h : s.QueueInv) (hq : s.q = []) : s.Quiescent := by
  refine ⟨hq, ?_⟩
  cases heng : s.eng with
  | idle => rfl
  | run => exact absurd hq (h.runHead heng)

theorem OpFrame.quiescent {p : Op} {s t : State} (h : OpFrame p s t) (hs : s.Quiescent) : t.Quiescent := by
  rw [h.regs]
  exact hs

theorem State.queueInv_releaseScratch {s : State} (hs : s.Quiescent) : s.releaseScratch.QueueInv :=
  State.queueInv_of_quiescent hs s.releaseScratch_spec.2

/-- Accepting an operation with a key, well-formed regions and room in `Q` keeps the invariants; the head stays the head. -/
theorem State.QueueInv.enqueue {s : State} (h : s.QueueInv) {p : Pending} (keyed : s.keyValid = true)
    (regions : Op.regionsOk p.toOp = true) (room : Platform.full s.plat s.q.length = false) :
    (s.enqueue p).QueueInv where
  runHead _ := by simp
  bounded d hd := by simpa using full_false_iff.1 room d hd
  regions r hr := by
    rcases List.mem_append.1 hr with hr | hr
    · exact h.regions r hr
    · rwa [List.mem_singleton.1 hr]
  keyed _ := keyed
  progress heng r hr := h.progress heng r (by simpa [List.head?_append_of_ne_nil _ (h.runHead heng)] using hr)
  idxBounded := h.idxBounded

/-- `ENG` at `RUN` after a start or chunk step of the head operation, with `IDX` within its chunks. -/
theorem State.QueueInv.setRun {s u : State} {p : Pending} {rest : List Pending} (h : s.QueueInv) (head : s.q = p :: rest)
    (frame : OpFrame p.toOp s u) (progress : u.idx ≤ chunks p.len.toNat) : u.setRun.QueueInv := by
  obtain ⟨hplat, hq, hkey⟩ : u.plat = s.plat ∧ u.q = s.q ∧ u.keyValid = s.keyValid := by
    rw [frame.regs]
    exact ⟨rfl, rfl, rfl⟩
  exact {
    runHead := fun _ => by simp [hq, head]
    bounded := by simpa only [State.setRun_plat, State.setRun_q, hplat, hq] using h.bounded
    regions := by simpa only [State.setRun_q, hq] using h.regions
    keyed := by simpa only [State.setRun_q, State.setRun_keyValid, hq, hkey] using h.keyed
    progress := fun _ r hr => by
      obtain rfl : p = r := by simpa [hq, head] using hr
      exact progress
    idxBounded := progress.trans (chunks_le p.len) }

/-- Removing the head operation, with the scratch registers released. -/
theorem State.QueueInv.retire {s : State} (h : s.QueueInv) : s.retire.releaseScratch.QueueInv where
  runHead heng := by simp at heng
  bounded d hd := (List.tail_sublist s.q).length_le.trans (h.bounded d hd)
  regions r hr := h.regions r (List.mem_of_mem_tail hr)
  keyed hq := h.keyed fun hnil => hq (by simp [hnil])
  progress heng := by simp at heng
  idxBounded := s.retire.releaseScratch_spec.2

theorem CommandStep.queueInv {w : Desc} {s t : State} (h : CommandStep w s t) (hs : s.QueueInv) : t.QueueInv := by
  cases h with
  | rejected | held => exact hs.congr rfl
  | installed _ _ quiet | keyFault _ quiet => exact State.queueInv_of_quiescent (hs.quiescent quiet) hs.idxBounded
  | transformed _ _ quiet u ran =>
    exact (State.queueInv_releaseScratch ((ctrRun_ok ran).1.quiescent (hs.quiescent quiet))).congr rfl
  | transformFault _ _ quiet u ran =>
    exact State.queueInv_releaseScratch ((ctrRun_error ran).1.quiescent (hs.quiescent quiet))
  | submitted p keyed regions room => exact (hs.enqueue keyed regions room).congr rfl

theorem EngineMove.queueInv {s t : State} (h : EngineMove s t) (hs : s.QueueInv) : t.QueueInv := by
  cases h with
  | none => exact hs
  | fault => exact hs.congr rfl
  | start p rest _ head _ u ran =>
    obtain ⟨frame, -, hidx⟩ := opStart_ok ran
    exact hs.setRun head frame (by omega)
  | chunk p rest _ head phase more u ran =>
    obtain ⟨frame, -, hidx⟩ := opChunk_ok ran
    have hrun : t.eng = .run := by
      rw [frame.regs]
      exact phase
    exact (hs.setRun head frame (by omega)).congr (by simp [State.queueView, hrun])
  | finish p rest _ _ _ _ u ran =>
    have hu : u.queueView = s.queueView := by
      rw [(opFinish_ok ran).2]
      rfl
    exact (hs.congr hu).retire.congr rfl

theorem Move.queueInv {r t : State} {a : Turn} (h : Move r a t) (hr : r.QueueInv) : t.QueueInv := by
  cases h with
  | reset => exact State.queueInv_of_quiescent ⟨rfl, rfl⟩ r.releaseScratch_spec.2
  | engine _ move => exact move.queueInv hr
  | wait => exact hr
  | resumed _ _ _ _ ran => exact ran.queueInv hr
  | presented _ _ _ _ _ _ ran => exact ran.queueInv (hr.congr rfl)
  | load | store => exact hr.congr rfl

/-- Settles O57, by cases on the moves of a step from the state with the turn taken. -/
theorem stepKeepsQueue : Obligations.StepKeepsQueue :=
  fun _ _ hs h => (step_move h).queueInv (hs.congr rfl)

end Sys2Proof.Machine
end

section
/-!
PROOFS. What may stay on the command port (spec/10_state.md R25): a descriptor is held only after it has passed its checks,
and whether it passes them depends on `KEY_VALID` alone, which nothing but a reset, which frees the port, can clear.
-/

namespace Sys2Proof.Machine

theorem State.portInv_of_free {s : State} (hp : s.port = .free) : s.PortInv := by
  simp [State.PortInv, hp]

theorem State.portInv_of_held {s : State} {w : Desc} (hp : s.port = .held w) (valid : heldValid w s = true) :
    s.PortInv := by
  intro v hv
  obtain rfl : w = v := Port.held.inj (hp.symm.trans hv)
  exact valid

theorem State.PortInv.congr {s t : State} (h : s.PortInv) (hp : t.port = s.port) (hk : t.keyValid = s.keyValid) :
    t.PortInv :=
  fun w hw => heldValid_congr hk ▸ h w (hp ▸ hw)

theorem OpFrame.port_keyValid {p : Op} {s t : State} (h : OpFrame p s t) :
    t.port = s.port ∧ t.keyValid = s.keyValid := by
  rw [h.regs]
  exact ⟨rfl, rfl⟩

/-- A command that stays on the port has passed its checks; any other leaves the port free. -/
theorem CommandStep.portInv {w : Desc} {s t : State} (h : CommandStep w s t) : t.PortInv := by
  cases h with
  | rejected | installed | transformed | submitted => exact State.portInv_of_free rfl
  | held valid | keyFault valid => exact State.portInv_of_held rfl (heldValid_congr rfl ▸ valid)
  | transformFault _ valid _ u ran =>
    obtain ⟨hp, hk⟩ := (ctrRun_error ran).1.port_keyValid
    exact State.portInv_of_held hp (heldValid_congr hk ▸ valid)

theorem EngineMove.port_keyValid {s t : State} (h : EngineMove s t) : t.port = s.port ∧ t.keyValid = s.keyValid := by
  cases h with
  | none | fault => exact ⟨rfl, rfl⟩
  | start _ _ _ _ _ _ ran => exact (opStart_ok ran).1.port_keyValid
  | chunk _ _ _ _ _ _ _ ran => exact (opChunk_ok ran).1.port_keyValid
  | finish _ _ _ _ _ _ _ ran => exact (opFinish_ok ran).1.port_keyValid

theorem Move.portInv {r t : State} {a : Turn} (h : Move r a t) (hr : r.PortInv) : t.PortInv := by
  cases h with
  | reset => exact State.portInv_of_free rfl
  | engine _ move => exact hr.congr move.port_keyValid.1 move.port_keyValid.2
  | wait => exact hr
  | resumed _ _ _ _ ran | presented _ _ _ _ _ _ ran => exact ran.portInv
  | load _ _ _ port | store _ _ _ port => exact State.portInv_of_free port

/-- Settles O58, by cases on the moves of a step from the state with the turn taken. -/
theorem stepKeepsPort : Obligations.StepKeepsPort :=
  fun _ _ hs h => (step_move h).portInv (hs.congr rfl rfl)

end Sys2Proof.Machine
end

section
/-!
PROOFS. The state right after reset (spec/10_state.md R35, spec/00_scope.md R7) and the owned addresses (R31).
-/

namespace Sys2Proof.Machine

/-- Settles O53: the fields as State.reset names them; with no hole in the platform every address below `2^32` is mapped. -/
theorem resetState : Obligations.ResetState := by
  refine ⟨rfl, rfl, rfl, rfl, rfl, rfl, rfl, fun x hx => ?_⟩
  have hx : x < memSize := hx
  simp [Platform.mapped, State.reset, Platform.default, hx]

/-- Settles O55: memory and the traces are empty, nothing is outstanding, the port is free and no key is set. -/
theorem resetMeetsInvariants : Obligations.ResetMeetsInvariants :=
  ⟨{ canonical := Memory.reset_wf, inSpace := by simp [State.reset] },
    State.queueInv_of_quiescent ⟨rfl, rfl⟩ (Nat.zero_le _), State.portInv_of_free rfl,
    fun hkey => by simp [State.reset] at hkey, rfl, by decide⟩

theorem mem_range_iff_exists_offset {a n x : Nat} : a ≤ x ∧ x < a + n ↔ ∃ k, k < n ∧ x = a + k :=
  ⟨fun _ => ⟨x - a, by omega, by omega⟩, fun ⟨_, _, _⟩ => by omega⟩

/-- Settles O24: `owned` asks for an address between a region's bounds, R31 for one at an offset below the region's size. -/
theorem ownedAddresses : Obligations.OwnedAddresses := by
  intro q x
  simp [owned, mem_range_iff_exists_offset]

end Sys2Proof.Machine
end

section
/-!
PROOFS. The round keys and what depends on them (spec/10_state.md R33). Two runs of one step, from states that differ in `RK`
alone, are walked side by side: the relation `SameButKey` holds between the states they pass through, and `SameFate` and
`SameOutcome` say that they fail, stop or go on together.
-/

namespace Sys2Proof.Machine

open Sys2Proof.Claims

/-- Of two results related by `R` in both parts, a conditional picks related ones. -/
theorem rel_ite {α β : Type} {R : α → β → Prop} {c : Prop} [Decidable c] {a a' : α} {b b' : β}
    (hpos : c → R a b) (hneg : ¬ c → R a' b') : R (if c then a else a') (if c then b else b') := by
  split
  · exact hpos ‹_›
  · exact hneg ‹_›

/-! ### The relation between the two runs -/

/-- Two canonical memories that agree at every address outside `B`. -/
structure Memory.AgreeOff (B : Nat → Prop) (m m' : Memory) : Prop where
  left  : Memory.wf m
  right : Memory.wf m'
  agree : ∀ x, ¬ B x → Memory.read m' x = Memory.read m x

theorem Memory.AgreeOff.refl {B : Nat → Prop} {m : Memory} (h : Memory.wf m) : Memory.AgreeOff B m m :=
  ⟨h, h, fun _ _ => rfl⟩

/-- Storing the same bytes keeps the agreement. -/
theorem Memory.AgreeOff.writeBytes_same {B : Nat → Prop} {m m' : Memory} (h : Memory.AgreeOff B m m') (a : Nat)
    (bs : List Byte) : Memory.AgreeOff B (Memory.writeBytes m a bs) (Memory.writeBytes m' a bs) := by
  refine ⟨Memory.writeBytes_wf a bs h.left, Memory.writeBytes_wf a bs h.right, fun x hx => ?_⟩
  by_cases hin : a ≤ x ∧ x < a + bs.length
  · obtain ⟨k, hk, rfl⟩ := mem_range_iff_exists_offset.1 hin
    rw [Memory.read_writeBytes_inside a k bs 0 h.left hk, Memory.read_writeBytes_inside a k bs 0 h.right hk]
  · rw [Memory.read_writeBytes_outside _ _ _ _ (by omega), Memory.read_writeBytes_outside _ _ _ _ (by omega)]
    exact h.agree x hx

/-- Storing any bytes inside `B` keeps the agreement. -/
theorem Memory.AgreeOff.writeBytes_inside {B : Nat → Prop} {m m' : Memory} (h : Memory.AgreeOff B m m') {a : Nat}
    {bs bs' : List Byte} (hin : ∀ x, ¬ B x → x < a ∨ (a + bs.length ≤ x ∧ a + bs'.length ≤ x)) :
    Memory.AgreeOff B (Memory.writeBytes m a bs) (Memory.writeBytes m' a bs') := by
  refine ⟨Memory.writeBytes_wf a bs h.left, Memory.writeBytes_wf a bs' h.right, fun x hx => ?_⟩
  have hout := hin x hx
  rw [Memory.read_writeBytes_outside _ _ _ _ (by omega), Memory.read_writeBytes_outside _ _ _ _ (by omega)]
  exact h.agree x hx

/-- The second state differs from the first at most in `RK`, `KSB` and memory; and in memory only inside `B`, if `canon`, the
claim that the step began in canonical memory, holds. -/
inductive SameButKey (canon : Prop) (B : Nat → Prop) (s : State) : State → Prop where
  | intro (rk : RoundKeys) (k : Block) (m : Memory) (agree : canon → Memory.AgreeOff B s.mem m) :
      SameButKey canon B s { s with rk := rk, ksb := k, mem := m }

/-- Two access sequences both succeed or both raise the fatal fault, in related states. -/
inductive SameFate (R : State → State → Prop) : Except State State → Except State State → Prop where
  | ok {s t : State} (h : R s t) : SameFate R (.ok s) (.ok t)
  | error {s t : State} (h : R s t) : SameFate R (.error s) (.error t)

/-- Two steps both answer related next states or both stop for the same reason. -/
inductive SameOutcome (R : State → State → Prop) :
    Host.Outcome State Fault Refusal → Host.Outcome State Fault Refusal → Prop where
  | next {s t : State} (h : R s t) : SameOutcome R (.next s) (.next t)
  | fault (f : Fault) : SameOutcome R (.fault f) (.fault f)

theorem SameFate.bind {R : State → State → Prop} {r r' : Except State State} {f : State → Except State State}
    (h : SameFate R r r') (hf : ∀ s t, R s t → SameFate R (f s) (f t)) : SameFate R (r >>= f) (r' >>= f) := by
  cases h with
  | ok h => exact hf _ _ h
  | error h => exact .error h

theorem SameFate.settle {R : State → State → Prop} {r r' : Except State State} (h : SameFate R r r') :
    SameOutcome R (settle r) (settle r') := by
  cases h with
  | ok h | error h => exact .next h

/-- The addresses of the operation's buffer. -/
def Op.inBuffer (p : Op) (x : Nat) : Prop := p.buf.toNat ≤ x ∧ x < p.buf.toNat + p.len.toNat

section
variable {canon : Prop} {B : Nat → Prop} {s t : State}

theorem SameButKey.respond (h : SameButKey canon B s t) (st : Status) (tk : Word) :
    SameButKey canon B (s.respond st tk) (t.respond st tk) := by
  obtain ⟨rk, k, m, agree⟩ := h
  exact .intro rk k m agree

theorem SameButKey.releaseScratch (h : SameButKey canon B s t) :
    SameButKey canon B s.releaseScratch t.releaseScratch := by
  obtain ⟨rk, k, m, agree⟩ := h
  exact .intro rk _ m agree

theorem SameButKey.setRun (h : SameButKey canon B s t) : SameButKey canon B s.setRun t.setRun := by
  obtain ⟨rk, k, m, agree⟩ := h
  exact .intro rk k m agree

theorem SameButKey.notify (h : SameButKey canon B s t) (n : Ntf) : SameButKey canon B (s.notify n) (t.notify n) := by
  obtain ⟨rk, k, m, agree⟩ := h
  exact .intro rk k m agree

theorem SameButKey.retire (h : SameButKey canon B s t) : SameButKey canon B s.retire t.retire := by
  obtain ⟨rk, k, m, agree⟩ := h
  exact .intro rk k m agree

theorem SameFate.endSync {r r' : Except State State} (h : SameFate (SameButKey canon B) r r') :
    SameOutcome (SameButKey canon B) (endSync r) (endSync r') := by
  cases h with
  | ok h => exact .next (h.releaseScratch.respond .ok 0)
  | error h => exact .next h.releaseScratch

/-! ### The steps of an operation and of a key installation -/

/-- The keystream enters memory inside the buffer only. -/
theorem opChunk_sameFate {p : Op} (hB : ∀ x, p.inBuffer x → B x) (h : SameButKey canon B s t) :
    SameFate (SameButKey canon B) (opChunk p s) (opChunk p t) := by
  obtain ⟨rk, k, m, agree⟩ := h
  rw [opChunk_eq, opChunk_eq]
  refine rel_ite (fun _ => .ok (.intro _ _ _ fun hc => (agree hc).writeBytes_inside fun x hx => ?_))
    fun _ => .error (.intro _ _ _ agree)
  have hout : ¬ p.inBuffer x := fun hin => hx (hB x hin)
  simp only [Op.inBuffer, chunkAddr, chunkBytes, xorBytes, List.length_zipWith, Memory.readBytes_length,
    Vector.length_toList] at hout ⊢
  omega

theorem opChunks_sameFate {p : Op} (hB : ∀ x, p.inBuffer x → B x) (n : Nat) (h : SameButKey canon B s t) :
    SameFate (SameButKey canon B) (opChunks p n s) (opChunks p n t) := by
  induction n generalizing s t with
  | zero => exact .ok h
  | succ n ih => exact (opChunk_sameFate hB h).bind fun _ _ => ih

/-- The advanced counter is written as `CTRW` holds it, the same in both runs. -/
theorem opFinish_sameFate (p : Op) (h : SameButKey canon B s t) :
    SameFate (SameButKey canon B) (opFinish p s) (opFinish p t) := by
  obtain ⟨rk, k, m, agree⟩ := h
  rw [opFinish_eq, opFinish_eq]
  dsimp only
  generalize (bytes128 s.ctrw).toList = bs
  exact rel_ite (fun _ => .ok (.intro _ _ _ agree)) fun _ =>
    rel_ite (fun _ => .ok (.intro rk k _ fun hc => (agree hc).writeBytes_same p.ctr.toNat bs)) fun _ =>
      .error (.intro _ _ _ agree)

end

/-- Installing a key, spelled out (R80). -/
theorem installFrom_eq (a0 : Word) (s : State) :
    installFrom a0 s =
      if Platform.allMapped s.plat a0.toNat 16 then
        .ok ((s.installKey (keyExpansion (blockOfBytes (Memory.readBytes s.mem a0.toNat 16)))).respond .ok 0)
      else .error s.raiseFatal := by
  unfold installFrom memRead
  split <;> rfl

/-! ### The steps of the agents

From here on the two runs begin in the states `s` and `{ s with rk := rk }`, whose memories are equal. -/

section
variable {canon : Prop} {B : Nat → Prop} {s : State} (rk : RoundKeys) (canonical : canon → Memory.wf s.mem)
include canonical

theorem SameButKey.of_rk : SameButKey canon B s { s with rk := rk } :=
  .intro rk s.ksb s.mem fun hc => .refl (canonical hc)

/-- The counter is read before anything has been written. -/
theorem opStart_sameFate (p : Op) :
    SameFate (SameButKey canon B) (opStart p s) (opStart p { s with rk := rk }) := by
  have agree : canon → Memory.AgreeOff B s.mem s.mem := fun hc => .refl (canonical hc)
  rw [opStart_eq, opStart_eq]
  exact rel_ite (fun _ => .ok (.intro _ _ _ agree)) fun _ =>
    rel_ite (fun _ => .ok (.intro _ _ _ agree)) fun _ => .error (.intro _ _ _ agree)

theorem ctrRun_sameFate {p : Op} (hB : ∀ x, p.inBuffer x → B x) :
    SameFate (SameButKey canon B) (ctrRun p s) (ctrRun p { s with rk := rk }) :=
  (opStart_sameFate rk canonical p).bind fun _ _ h => (opChunks_sameFate hB _ h).bind fun _ _ => opFinish_sameFate p

theorem engineStep_sameOutcome (hB : ∀ r, s.q.head? = some r → ∀ x, r.inBuffer x → B x) :
    SameOutcome (SameButKey canon B) (engineStep s) (engineStep { s with rk := rk }) := by
  have same : SameButKey canon B s { s with rk := rk } := .of_rk rk canonical
  unfold engineStep
  dsimp only
  split
  · rename_i p rest _ hq
    have hB : ∀ x, p.inBuffer x → B x := hB p (by rw [hq]; rfl)
    split
    · exact ((opStart_sameFate rk canonical p.toOp).bind fun _ _ h => .ok h.setRun).settle
    · exact rel_ite (fun _ => (opChunk_sameFate hB same).settle) fun _ =>
        rel_ite
          (fun _ => ((opFinish_sameFate p.toOp same).bind fun _ _ h => .ok (h.notify p.ntf).retire.releaseScratch).settle)
          fun _ => .next same
  · exact .next same

/-- The new round keys are the expansion of bytes of memory, whatever `RK` was. -/
theorem installFrom_sameFate (a0 : Word) :
    SameFate (SameButKey canon B) (installFrom a0 s) (installFrom a0 { s with rk := rk }) := by
  have agree : canon → Memory.AgreeOff B s.mem s.mem := fun hc => .refl (canonical hc)
  rw [installFrom_eq, installFrom_eq]
  exact rel_ite (fun _ => .ok (.intro _ _ _ agree)) fun _ => .error (.intro _ _ _ agree)

theorem execSetKey_sameOutcome (a0 l0 : Word) :
    SameOutcome (SameButKey canon B) (execSetKey a0 l0 s) (execSetKey a0 l0 { s with rk := rk }) := by
  have same : SameButKey canon B (s.present (encode (.setKey a0 l0))) _ :=
    .of_rk (s := s.present (encode (.setKey a0 l0))) rk canonical
  exact rel_ite (fun _ => .next (same.respond _ 0)) fun _ =>
    rel_ite (fun _ => .next (same.respond _ 0)) fun _ =>
      rel_ite (fun _ => .next same) fun _ =>
        (installFrom_sameFate (s := s.present (encode (.setKey a0 l0))) rk canonical a0).settle

theorem runSync_sameOutcome (cmd : Desc) {p : Op} {l1 : Word} (hB : l1 = 16 → ∀ x, p.inBuffer x → B x) :
    SameOutcome (SameButKey canon B) (runSync cmd p l1 s) (runSync cmd p l1 { s with rk := rk }) := by
  have same : SameButKey canon B (s.present cmd) (State.present { s with rk := rk } cmd) :=
    .of_rk (s := s.present cmd) rk canonical
  have hval : validate p l1 (State.present { s with rk := rk } cmd) = validate p l1 (s.present cmd) := validate_congr rfl
  unfold runSync
  dsimp only
  rw [hval]
  cases hv : validate p l1 (s.present cmd) with
  | some st => exact .next (same.respond st 0)
  | none =>
    obtain ⟨-, hl, -⟩ := validate_none_iff.1 hv
    refine rel_ite (fun _ => .next same) fun _ => ?_
    exact (ctrRun_sameFate (s := s.present cmd) rk canonical (hB hl)).endSync

theorem runAsync_sameOutcome (cmd : Desc) (p : Pending) (l1 : Word) :
    SameOutcome (SameButKey canon B) (runAsync cmd p l1 s) (runAsync cmd p l1 { s with rk := rk }) := by
  have agree : canon → Memory.AgreeOff B s.mem s.mem := fun hc => .refl (canonical hc)
  have hval : validateAsync p.toOp l1 (State.present { s with rk := rk } cmd) =
      validateAsync p.toOp l1 (s.present cmd) := rfl
  unfold runAsync
  dsimp only
  rw [hval]
  cases validateAsync p.toOp l1 (s.present cmd) with
  | some st => exact .next (.intro _ _ _ agree)
  | none => exact .next (.intro _ _ _ agree)

theorem runCommand_sameOutcome {w : Desc}
    (hB : ∀ p : Op, (∃ i ∈ syncCommands p.buf p.len p.ctr 16, decode w = .ok i) → ∀ x, p.inBuffer x → B x) :
    SameOutcome (SameButKey canon B) (runCommand w s) (runCommand w { s with rk := rk }) := by
  unfold runCommand
  cases hd : decode w with
  | error e => exact .next ((SameButKey.of_rk (s := s.present w) rk canonical).respond .illegalCommand 0)
  | ok i =>
    cases i with
    | setKey a0 l0 => exact execSetKey_sameOutcome rk canonical a0 l0
    | encryptCtrSync a0 l0 a1 l1 =>
      exact runSync_sameOutcome rk canonical _ fun hl => hB _ ⟨_, by simp [syncCommands], hl ▸ hd⟩
    | decryptCtrSync a0 l0 a1 l1 =>
      exact runSync_sameOutcome rk canonical _ fun hl => hB _ ⟨_, by simp [syncCommands], hl ▸ hd⟩
    | encryptCtrAsync a0 l0 a1 l1 cb tok => exact runAsync_sameOutcome rk canonical _ _ l1
    | decryptCtrAsync a0 l0 a1 l1 cb tok => exact runAsync_sameOutcome rk canonical _ _ l1

theorem hostLoad_sameOutcome (a : Word) (n : Nat) :
    SameOutcome (SameButKey canon B) (hostLoad a n s) (hostLoad a n { s with rk := rk }) :=
  rel_ite (fun _ => .fault .outsideMemory) fun _ => .next (.intro rk _ _ fun hc => .refl (canonical hc))

theorem hostStore_sameOutcome (a : Word) (bs : List Byte) :
    SameOutcome (SameButKey canon B) (hostStore a bs s) (hostStore a bs { s with rk := rk }) :=
  rel_ite (fun _ => .fault .outsideMemory) fun _ =>
    rel_ite (fun _ => .fault .ownershipViolation) fun _ =>
      .next (.intro rk _ _ fun hc => .refl (Memory.writeBytes_wf a.toNat bs (canonical hc)))

theorem hostStep_sameOutcome
    (hB : ∀ w, (s.port = .held w ∨ s.prog.head? = some (.command w)) → ∀ p : Op,
      (∃ i ∈ syncCommands p.buf p.len p.ctr 16, decode w = .ok i) → ∀ x, p.inBuffer x → B x) :
    SameOutcome (SameButKey canon B) (hostStep s) (hostStep { s with rk := rk }) := by
  have same : SameButKey canon B s { s with rk := rk } := .of_rk rk canonical
  unfold hostStep
  dsimp only
  split
  · rename_i w hport
    exact rel_ite (fun _ => .next same) fun _ => runCommand_sameOutcome rk canonical (hB w (.inl hport))
  · split
    · exact .next same
    · rename_i w rest hprog
      exact rel_ite (fun _ => .next same) fun _ =>
        runCommand_sameOutcome (s := s.setProg rest) rk canonical (hB w (.inr (by rw [hprog]; rfl)))
    · rename_i a n rest _
      exact hostLoad_sameOutcome (s := s.setProg rest) rk canonical a n
    · rename_i a bs rest _
      exact hostStore_sameOutcome (s := s.setProg rest) rk canonical a bs

end

/-- One step of the two runs, with `B` the buffer that the step may transform. -/
theorem step_sameOutcome (s : State) (rk : RoundKeys) :
    SameOutcome (SameButKey (Memory.wf s.mem) fun x => ∃ p, mayTransform s p ∧ p.inBuffer x)
      (step s) (step { s with rk := rk }) := by
  unfold step interleave
  show SameOutcome _ (agentStep s.turn _) (agentStep s.turn _)
  cases ht : s.turn with
  | host =>
    exact hostStep_sameOutcome (s := s.setTurns s.turns.tail) rk id fun w hw p hp x hx => ⟨p, .inr ⟨ht, w, hw, hp⟩, hx⟩
  | engine =>
    exact engineStep_sameOutcome (s := s.setTurns s.turns.tail) rk id fun r hr x hx =>
      ⟨r.toOp, .inl ⟨ht, r, hr, rfl⟩, hx⟩
  | reset => exact .next (.intro _ _ _ fun hc => .refl hc)

/-- Settles O49: the two runs of a step end in `SameOutcome`, whose states `SameButKey` relates as the statement asks. -/
theorem portsRevealNoKey : Obligations.PortsRevealNoKey := by
  intro s rk
  have same := step_sameOutcome s rk
  refine ⟨fun t ht => ?_, fun f hf => ?_⟩
  · rw [ht] at same
    generalize step { s with rk := rk } = o at same
    obtain ⟨rk', k, m, agree⟩ | _ := same
    exact ⟨_, rfl, rfl, fun hc x hx => (agree hc).agree x fun ⟨p, hp, hin⟩ => hx p hp hin⟩
  · rw [hf] at same
    generalize step { s with rk := rk } = o at same
    cases same
    rfl

end Sys2Proof.Machine
end

section
/-!
PROOFS. The canonical form of memory within the address space (spec/20_memory.md R40): an operation keeps it by its frame, a host
store because it ends at or below `2^32`, and nothing else writes memory.
-/

namespace Sys2Proof.Machine

theorem State.MemInv.congr {s t : State} (h : s.MemInv) (hm : t.mem = s.mem) : t.MemInv :=
  ⟨hm ▸ h.canonical, hm ▸ h.inSpace⟩

theorem State.MemInv.writeBytes {s : State} (h : s.MemInv) {a : Nat} {bs : List Byte}
    (inside : a + bs.length ≤ memSize) : (s.setMem (Memory.writeBytes s.mem a bs)).MemInv :=
  ⟨Memory.writeBytes_wf a bs h.canonical, Memory.writeBytes_inSpace a bs (.inr inside) h.inSpace⟩

theorem OpFrame.memInv {p : Op} {s t : State} (h : OpFrame p s t) (hs : s.MemInv) : t.MemInv :=
  ⟨h.canonical hs.canonical, h.inSpace hs.inSpace⟩

theorem CommandStep.memInv {w : Desc} {s t : State} (h : CommandStep w s t) (hs : s.MemInv) : t.MemInv := by
  cases h with
  | rejected | held | installed | keyFault | submitted => exact hs.congr rfl
  | transformed _ _ _ u ran => exact ((ctrRun_ok ran).1.memInv (hs.congr rfl)).congr rfl
  | transformFault _ _ _ u ran => exact ((ctrRun_error ran).1.memInv (hs.congr rfl)).congr rfl

theorem EngineMove.memInv {s t : State} (h : EngineMove s t) (hs : s.MemInv) : t.MemInv := by
  cases h with
  | none => exact hs
  | fault => exact hs.congr rfl
  | start _ _ _ _ _ u ran => exact ((opStart_ok ran).1.memInv hs).congr rfl
  | chunk _ _ _ _ _ _ _ ran => exact (opChunk_ok ran).1.memInv hs
  | finish _ _ _ _ _ _ u ran => exact ((opFinish_ok ran).1.memInv hs).congr rfl

theorem Move.memInv {r t : State} {a : Turn} (h : Move r a t) (hr : r.MemInv) : t.MemInv := by
  cases h with
  | reset | load => exact hr.congr rfl
  | wait => exact hr
  | engine _ move => exact move.memInv hr
  | resumed _ _ _ _ ran => exact ran.memInv hr
  | presented _ _ _ _ _ _ ran => exact ran.memInv (hr.congr rfl)
  | store _ _ _ _ _ inside => exact (hr.writeBytes inside).congr rfl

/-- Settles O56, by cases on the moves of a step from the state with the turn taken. -/
theorem stepKeepsMemory : Obligations.StepKeepsMemory :=
  fun _ _ hs h => (step_move h).memInv (hs.congr rfl)

end Sys2Proof.Machine
end

section
/-!
PROOFS. The access primitives (spec/20_memory.md R42): what a byte string written to canonical memory reads as, and that one
unmapped byte of the range is what makes an access fail.
-/

namespace Sys2Proof.Machine

/-- After a byte string is stored, its range reads as the string and every other address as before. -/
theorem Memory.read_writeBytes {m : Memory} (a : Nat) (bs : List Byte) (hm : Memory.wf m) :
    (∀ k, k < bs.length → Memory.read (Memory.writeBytes m a bs) (a + k) = bs.getD k 0) ∧
      ∀ x, (x < a ∨ a + bs.length ≤ x) → Memory.read (Memory.writeBytes m a bs) x = Memory.read m x :=
  ⟨fun k hk => Memory.read_writeBytes_inside a k bs 0 hm hk, fun x hx => Memory.read_writeBytes_outside m a x bs hx⟩

theorem Platform.allMapped_eq_false_iff {p : Platform} {a n : Nat} :
    Platform.allMapped p a n = false ↔ ∃ k, k < n ∧ Platform.mapped p (a + k) = false := by
  simp [Platform.allMapped]

/-- Settles O23: with every byte mapped both primitives answer ok, with `readBytes` or `writeBytes` of the first `n` bytes; with
one unmapped both raise the fault. -/
theorem accessPrimitives : Obligations.AccessPrimitives := by
  intro a n bs s _
  refine ⟨fun mapped => ?_, fun hole => ?_⟩
  · have hall : Platform.allMapped s.plat a n = true := (Platform.allMapped_iff s.plat a n).2 mapped
    refine ⟨⟨_, memRead_ok_iff.2 ⟨hall, rfl⟩, Memory.readBytes_length s.mem a n,
      fun k hk => Memory.readBytes_getD s.mem a n k 0 hk⟩, fun enough canonical => ?_⟩
    have hlen : (bs.take n).length = n := List.length_take_of_le enough
    obtain ⟨inside, outside⟩ := Memory.read_writeBytes a (bs.take n) canonical
    rw [hlen] at inside outside
    refine ⟨_, memWrite_ok_iff.2 ⟨hall, rfl⟩, rfl, fun k hk => ?_, outside⟩
    rw [State.setMem_mem, inside k hk]
    simp [hk]
  · have hall : Platform.allMapped s.plat a n = false := Platform.allMapped_eq_false_iff.2 hole
    exact ⟨memRead_error_iff.2 ⟨hall, rfl⟩, memWrite_error_iff.2 ⟨hall, rfl⟩⟩

end Sys2Proof.Machine
end

section
/-!
PROOFS. One move per step (spec/20_memory.md R50, R51) and the host's own accesses (R54, spec/70_reset_and_hazards.md R200): which
agent's move a step is, and what a load and a store inside the address space answer.
-/

namespace Sys2Proof.Machine

/-! ### Whose move a step is -/

/-- With turns given, the first one moves, on the state with that turn taken. -/
theorem step_of_turns_cons {s : State} {t : Turn} {ts : List Turn} (h : s.turns = t :: ts) :
    step s = agentStep t (s.setTurns ts) := by
  simp [step, interleave, State.turn, h]

theorem State.setTurns_self (s : State) : s.setTurns s.turns = s := rfl

/-- With no turns given, `turn` chooses (log entry 4) and the state is as it was. -/
theorem step_of_turns_nil {s : State} (h : s.turns = []) :
    step s = agentStep (if engineEnabled s then .engine else .host) s := by
  have hs : s.setTurns [] = s := h ▸ s.setTurns_self
  simp [step, interleave, State.turn, h, hs]

theorem engineEnabled_iff {s : State} : engineEnabled s = true ↔ s.fatal = false ∧ s.q ≠ [] := by
  simp [engineEnabled]

/-- Settles O7: a given turn by its agent's move, the default schedule by whether the engine has a step. -/
theorem stepMovesOneAgent : Obligations.StepMovesOneAgent := by
  intro s ts
  refine ⟨step_of_turns_cons, step_of_turns_cons, step_of_turns_cons, fun h => ?_⟩
  rw [step_of_turns_nil h]
  by_cases he : engineEnabled s = true
  · rw [if_pos he, if_pos (engineEnabled_iff.1 he)]
    rfl
  · rw [if_neg he, if_neg (mt engineEnabled_iff.2 he)]
    rfl

/-! ### Loads and stores of the host -/

theorem hostStep_load {s : State} {a : Word} {n : Nat} {rest : List HostAct} (port : s.port = .free)
    (prog : s.prog = .load a n :: rest) : hostStep s = hostLoad a n (s.setProg rest) := by
  simp [hostStep, port, prog]

theorem hostStep_store {s : State} {a : Word} {bs : List Byte} {rest : List HostAct} (port : s.port = .free)
    (prog : s.prog = .store a bs :: rest) : hostStep s = hostStore a bs (s.setProg rest) := by
  simp [hostStep, port, prog]

/-- The bytes that a host load returns (R54 (b)). -/
def hostBytes (s : State) (a n : Nat) : List Byte := (List.range n).map fun k => hostByte s (a + k) k

@[simp] theorem hostBytes_length (s : State) (a n : Nat) : (hostBytes s a n).length = n := by
  simp [hostBytes]

/-- An address that nothing owns loads as memory holds it. -/
theorem hostBytes_getD_of_unowned {s : State} {a n k : Nat} (hk : k < n) (free : owned s.q (a + k) = false) :
    (hostBytes s a n).getD k 0 = Memory.read s.mem (a + k) := by
  simp [hostBytes, hostByte, hk, free]

theorem hostLoad_of_inside {a : Word} {n : Nat} {s : State} (inside : a.toNat + n ≤ memSize) :
    hostLoad a n s = .next (s.logRead { addr := a, bytes := hostBytes s a.toNat n } n) := by
  rw [hostLoad, if_neg (by simp [regionOk_iff.2 inside]), hostBytes]

theorem hostStore_of_unowned {a : Word} {bs : List Byte} {s : State} (inside : a.toNat + bs.length ≤ memSize)
    (mine : ∀ k, k < bs.length → owned s.q (a.toNat + k) = false) :
    hostStore a bs s = .next (s.setMem (Memory.writeBytes s.mem a.toNat bs)) := by
  rw [hostStore, if_neg (by simp [regionOk_iff.2 inside]), if_neg (by simpa using mine)]

/-- Settles O51: the step is the host's load or store on the state with the turn and the action taken. -/
theorem hostAccess : Obligations.HostAccess := by
  intro s a rest ts port turns
  rw [step_of_turns_cons turns, agentStep]
  refine ⟨fun n prog inside => ?_, fun bs prog inside canonical mine => ?_⟩
  · rw [hostStep_load (s := s.setTurns ts) port prog]
    exact ⟨_, hostLoad_of_inside inside, hostBytes_length _ _ _, fun k hk free => hostBytes_getD_of_unowned hk free⟩
  · rw [hostStep_store (s := s.setTurns ts) port prog]
    exact ⟨_, hostStore_of_unowned inside mine, rfl, Memory.read_writeBytes a.toNat bs canonical⟩

end Sys2Proof.Machine
end

section
/-!
PROOFS. Decoding and encoding (spec/30_encoding.md R62, R69, R73): a descriptor decodes to a command exactly when its fields are
the command's encoded fields, the legal fields are the encoded ones, and each of the three failing steps of R73 has its error.
-/

namespace Sys2Proof

/-- The five opcodes of R62. -/
abbrev assignedOpcodes : List (BitVec 8) := [0x01, 0x10, 0x11, 0x12, 0x13]

theorem opcode_cases {opc : BitVec 8} (h : opc ∈ assignedOpcodes) :
    opc = 0x01 ∨ opc = 0x10 ∨ opc = 0x11 ∨ opc = 0x12 ∨ opc = 0x13 := by
  simpa using h

theorem Cmd.reservedZero_iff {c : Cmd} : c.reservedZero = true ↔ c.rsv0 = 0 ∧ c.rsv1 = 0 := by
  simp [Cmd.reservedZero]

theorem Cmd.opcodeAssigned_iff {c : Cmd} : c.opcodeAssigned = true ↔ c.opc ∈ assignedOpcodes := by
  simp [Cmd.opcodeAssigned, or_assoc]

theorem Cmd.legal_iff {c : Cmd} :
    c.legal = true ↔ c.reservedZero = true ∧ c.opcodeAssigned = true ∧ c.unusedZero = true := by
  simp [Cmd.legal, and_assoc]

/-! ### Commands and their fields -/

theorem decodeCmd_encodeCmd (i : Instr) : decodeCmd (encodeCmd i) = .ok i := by
  cases i <;> simp [encodeCmd, decodeCmd]

/-- Decoding loses no bit: the command's encoded fields are all that the descriptor holds. -/
theorem decode_eq_ok_iff {w : Desc} {i : Instr} : decode w = .ok i ↔ encodeCmd i = Cmd.ofDesc w :=
  ⟨Machine.encodeCmd_of_decode, fun h => by rw [decode, ← h, decodeCmd_encodeCmd]⟩

theorem encode_eq_iff {w : Desc} {i : Instr} : encode i = w ↔ encodeCmd i = Cmd.ofDesc w :=
  ⟨fun h => by rw [← h, ofDesc_encode], Machine.encode_of_decode⟩

theorem decode_eq_ok_iff_encode_eq {w : Desc} {i : Instr} : decode w = .ok i ↔ encode i = w :=
  decode_eq_ok_iff.trans encode_eq_iff.symm

theorem encodeCmd_legal (i : Instr) : (encodeCmd i).legal = true := by
  cases i <;> rfl

/-- Legal fields are the encoded fields of the command that their opcode names. -/
theorem exists_encodeCmd_eq_of_legal {c : Cmd} (h : c.legal = true) : ∃ i, encodeCmd i = c := by
  obtain ⟨hrsv, hopc, hunused⟩ := Cmd.legal_iff.1 h
  obtain ⟨opc, rsv0, a0, l0, a1, l1, cb, tok, rsv1⟩ := c
  obtain ⟨rfl, rfl⟩ : rsv0 = 0 ∧ rsv1 = 0 := Cmd.reservedZero_iff.1 hrsv
  have hmem : opc ∈ assignedOpcodes := Cmd.opcodeAssigned_iff.1 hopc
  obtain rfl | rfl | rfl | rfl | rfl := opcode_cases hmem
  · exact ⟨.setKey a0 l0, by simp_all [encodeCmd, Cmd.unusedZero]⟩
  · exact ⟨.encryptCtrSync a0 l0 a1 l1, by simp_all [encodeCmd, Cmd.unusedZero]⟩
  · exact ⟨.decryptCtrSync a0 l0 a1 l1, by simp_all [encodeCmd, Cmd.unusedZero]⟩
  · exact ⟨.encryptCtrAsync a0 l0 a1 l1 cb tok, rfl⟩
  · exact ⟨.decryptCtrAsync a0 l0 a1 l1 cb tok, rfl⟩

theorem legal_iff_exists_encodeCmd_eq {c : Cmd} : c.legal = true ↔ ∃ i, encodeCmd i = c :=
  ⟨exists_encodeCmd_eq_of_legal, fun ⟨i, hi⟩ => hi ▸ encodeCmd_legal i⟩

/-- Settles O1: both directions are `decode_eq_ok_iff_encode_eq`. -/
theorem decodeEncodeInverse : Obligations.DecodeEncodeInverse :=
  ⟨fun _ => decode_eq_ok_iff_encode_eq.2 rfl, fun _ _ => decode_eq_ok_iff_encode_eq.1⟩

/-- Settles O4: each word is the descriptor of its command, evaluated, so it decodes to it. -/
theorem commandWordsDecode : Obligations.CommandWordsDecode := by
  refine ⟨?_, ?_, ?_, ?_, ?_⟩ <;>
  · rw [decode_eq_ok_iff_encode_eq]
    decide

/-! ### Illegal descriptors -/

theorem decodeCmd_of_reserved {c : Cmd} (hrsv : ¬ (c.rsv0 = 0 ∧ c.rsv1 = 0)) :
    decodeCmd c = .error .reservedField :=
  if_pos (not_and_or.1 hrsv)

theorem decodeCmd_of_unassigned {c : Cmd} (hrsv : c.reservedZero = true) (hopc : ¬ c.opcodeAssigned = true) :
    decodeCmd c = .error .reservedOpcode := by
  obtain ⟨hrsv0, hrsv1⟩ := Cmd.reservedZero_iff.1 hrsv
  rw [Cmd.opcodeAssigned_iff] at hopc
  simp_all [decodeCmd]

theorem decodeCmd_of_unused {c : Cmd} (hrsv : c.reservedZero = true) (hopc : c.opcodeAssigned = true)
    (hunused : c.unusedZero = false) : decodeCmd c = .error .unusedField := by
  obtain ⟨hrsv0, hrsv1⟩ := Cmd.reservedZero_iff.1 hrsv
  obtain h | h | h | h | h := opcode_cases (Cmd.opcodeAssigned_iff.1 hopc) <;> simp_all [decodeCmd, Cmd.unusedZero]

theorem exists_decode_eq_error_of_illegal {w : Desc} (h : (Cmd.ofDesc w).legal = false) : ∃ e, decode w = .error e := by
  cases hd : decode w with
  | error e => exact ⟨e, rfl⟩
  | ok i =>
    have hlegal : (Cmd.ofDesc w).legal = true := legal_iff_exists_encodeCmd_eq.2 ⟨i, decode_eq_ok_iff.1 hd⟩
    exact absurd hlegal (Bool.eq_false_iff.1 h)

theorem Cmd.legal_eq_false_of_unassigned {c : Cmd} (hopc : c.opc ∉ assignedOpcodes) : c.legal = false :=
  Bool.eq_false_iff.2 fun h => hopc (Cmd.opcodeAssigned_iff.1 (Cmd.legal_iff.1 h).2.1)

end Sys2Proof
end

section
/-!
PROOFS. Decoding in the order of its steps, and what presenting an illegal descriptor does (spec/30_encoding.md R68, R69, R73).
-/

namespace Sys2Proof.Machine

open Sys2Proof.Claims

/-- The one outcome of every illegal descriptor (R68, R69, R73). -/
theorem runCommand_of_decode_error {w : Desc} {e : DecodeError} (h : decode w = .error e) (s : State) :
    runCommand w s = rejected s .illegalCommand := by
  simp only [runCommand, h]
  rfl

/-- Settles O3: one lemma per step of R73, and the outcome of an illegal descriptor. -/
theorem decodeFollowsSteps : Obligations.DecodeFollowsSteps := by
  intro w
  refine ⟨decodeCmd_of_reserved, fun hrsv hopc => decodeCmd_of_unassigned hrsv (mt Cmd.opcodeAssigned_iff.1 hopc),
    fun hrsv hopc => decodeCmd_of_unused hrsv (Cmd.opcodeAssigned_iff.2 hopc), fun hlegal => ?_,
    fun e s h => runCommand_of_decode_error h s⟩
  obtain ⟨i, hi⟩ := exists_encodeCmd_eq_of_legal hlegal
  exact ⟨i, decode_eq_ok_iff.2 hi, hi⟩

theorem hostStep_command {s : State} {w : Desc} {rest : List HostAct} (alive : s.fatal = false) (port : s.port = .free)
    (prog : s.prog = .command w :: rest) : hostStep s = runCommand w (s.setProg rest) := by
  simp [hostStep, alive, port, prog]

/-- With the port free, a rejection drives its response and does nothing else. -/
theorem rejected_of_free {s : State} (port : s.port = .free) (st : Status) :
    rejected s st = .next { s with rsps := s.rsps ++ [{ status := st, token := 0 }] } := by
  rw [rejected, ← port]

/-- Settles O8: the host's step runs the descriptor, which does not decode. -/
theorem illegalDescriptorHasNoEffect : Obligations.IllegalDescriptorHasNoEffect := by
  intro s w rest ts alive port turns prog hw
  have hillegal : (Cmd.ofDesc w).legal = false := hw.elim Cmd.legal_eq_false_of_unassigned id
  obtain ⟨e, he⟩ := exists_decode_eq_error_of_illegal hillegal
  rw [step_of_turns_cons turns, agentStep, hostStep_command (s := s.setTurns ts) alive port prog,
    runCommand_of_decode_error he, rejected_of_free (s := (s.setTurns ts).setProg rest) port]
  rfl

end Sys2Proof.Machine
end

section
/-!
PROOFS. The mask and match table (spec/30_encoding.md R63): masking a descriptor masks each of its fields, so matching a row asks
that the opcode is the row's and that the reserved and unused fields are 0.
-/

namespace Sys2Proof

/-- Masking fields one by one. -/
def Cmd.masked (c m : Cmd) : Cmd where
  opc  := c.opc &&& m.opc
  rsv0 := c.rsv0 &&& m.rsv0
  a0   := c.a0 &&& m.a0
  l0   := c.l0 &&& m.l0
  a1   := c.a1 &&& m.a1
  l1   := c.l1 &&& m.l1
  cb   := c.cb &&& m.cb
  tok  := c.tok &&& m.tok
  rsv1 := c.rsv1 &&& m.rsv1

theorem Cmd.ofDesc_and (w m : Desc) : Cmd.ofDesc (w &&& m) = (Cmd.ofDesc w).masked (Cmd.ofDesc m) := by
  simp [Cmd.ofDesc, Cmd.masked, BitVec.extractLsb'_and]

theorem Cmd.ofDesc_inj {w v : Desc} : Cmd.ofDesc w = Cmd.ofDesc v ↔ w = v :=
  (Function.LeftInverse.injective Cmd.toDesc_ofDesc).eq_iff

theorem MaskRow.selects_iff_masked {r : MaskRow} {w : Desc} :
    r.selects w = true ↔ (Cmd.ofDesc w).masked (Cmd.ofDesc r.mask) = Cmd.ofDesc r.pattern := by
  rw [MaskRow.selects, beq_iff_eq, ← Cmd.ofDesc_inj, Cmd.ofDesc_and]

/-- The fields that the mask of a command's row keeps: all but the ones that the command uses (R61, R63). -/
def Cmd.keptFields (opc : BitVec 8) : Cmd :=
  let ctr : Word := if opc = 0x01 then BitVec.allOnes 32 else 0
  let ntf : Word := if opc = 0x12 ∨ opc = 0x13 then 0 else BitVec.allOnes 32
  { opc := BitVec.allOnes 8, rsv0 := BitVec.allOnes 24, a0 := 0, l0 := 0, a1 := ctr, l1 := ctr, cb := ntf, tok := ntf,
    rsv1 := BitVec.allOnes 32 }

/-- The fields of a row's match: the opcode, and 0 everywhere else (R63). -/
def Cmd.opcodeOnly (opc : BitVec 8) : Cmd :=
  { opc := opc, rsv0 := 0, a0 := 0, l0 := 0, a1 := 0, l1 := 0, cb := 0, tok := 0, rsv1 := 0 }

theorem MaskRow.fields_of_mem : ∀ r ∈ maskRows,
    r.opc ∈ assignedOpcodes ∧ Cmd.ofDesc r.mask = Cmd.keptFields r.opc ∧
      Cmd.ofDesc r.pattern = Cmd.opcodeOnly r.opc := by
  decide

/-- What the mask keeps is the opcode alone exactly when the reserved and the unused fields are 0. -/
theorem Cmd.masked_keptFields_iff {c : Cmd} {opc : BitVec 8} (hopc : opc ∈ assignedOpcodes) :
    c.masked (Cmd.keptFields opc) = Cmd.opcodeOnly opc ↔ c.legal = true ∧ c.opc = opc := by
  have hkept : (c.masked (Cmd.keptFields opc)).opc = c.opc := BitVec.and_allOnes
  by_cases hc : c.opc = opc
  · subst hc
    rw [Cmd.legal_iff, Cmd.reservedZero_iff, Cmd.opcodeAssigned_iff]
    obtain h | h | h | h | h := opcode_cases hopc <;>
      simp [h, Cmd.masked, Cmd.keptFields, Cmd.opcodeOnly, Cmd.unusedZero, and_comm, and_left_comm, and_assoc,
        -BitVec.reduceAllOnes]
  · exact iff_of_false (fun h => hc (hkept.symm.trans (congrArg Cmd.opc h))) (fun h => hc h.2)

/-- A row matches the legal descriptors with its opcode. -/
theorem MaskRow.selects_iff_legal {r : MaskRow} (hr : r ∈ maskRows) (w : Desc) :
    r.selects w = true ↔ (Cmd.ofDesc w).legal = true ∧ (Cmd.ofDesc w).opc = r.opc := by
  obtain ⟨hopc, hmask, hpattern⟩ := MaskRow.fields_of_mem r hr
  rw [MaskRow.selects_iff_masked, hmask, hpattern, Cmd.masked_keptFields_iff hopc]

/-- Settles O2: a legal descriptor is one that decodes, and no two rows have the same opcode. -/
theorem maskMatchSelectsCommand : Obligations.MaskMatchSelectsCommand := by
  refine ⟨fun w r hr => ?_, fun w => ?_⟩
  · rw [MaskRow.selects_iff_legal hr, legal_iff_exists_encodeCmd_eq, ← exists_and_right]
    refine exists_congr fun i => ?_
    rw [decode_eq_ok_iff]
    exact and_congr_right fun hi => by rw [hi]
  · have hopcs : maskRows.Pairwise fun r r' => r.opc ≠ r'.opc := by decide
    refine hopcs.imp_of_mem fun {r r'} hr hr' hne ⟨hsel, hsel'⟩ => hne ?_
    rw [← ((MaskRow.selects_iff_legal hr w).1 hsel).2, ((MaskRow.selects_iff_legal hr' w).1 hsel').2]

end Sys2Proof
end

section
/-!
PROOFS. The words on the response and notification ports (spec/30_encoding.md R64 to R66): each field is read off the
concatenation that put it there.
-/

namespace Sys2Proof.Machine

theorem Status.toInt_word (st : Status) : st.word.toInt = st.code := by
  cases st <;> decide

theorem Rsp.status_of_word (r : Rsp) : r.word.extractLsb' 0 32 = r.status.word :=
  BitVec.extractLsb'_append_eq_right

theorem Rsp.token_of_word (r : Rsp) : r.word.extractLsb' 32 32 = r.token :=
  BitVec.extractLsb'_append_eq_left

/-! The notification is `((reserved ++ token) ++ kind) ++ callback`: each field is read after the parts below it are dropped. -/

theorem Ntf.cb_of_word (n : Ntf) : n.word.extractLsb' 0 32 = n.cb :=
  BitVec.extractLsb'_append_eq_right

theorem Ntf.kind_of_word (n : Ntf) : n.word.extractLsb' 32 32 = (kindBit n.kind).setWidth 32 :=
  (BitVec.extractLsb'_append_eq_of_le le_rfl).trans BitVec.extractLsb'_append_eq_right

theorem Ntf.tok_of_word (n : Ntf) : n.word.extractLsb' 64 32 = n.tok :=
  (BitVec.extractLsb'_append_eq_of_le (by decide)).trans <|
    (BitVec.extractLsb'_append_eq_of_le le_rfl).trans BitVec.extractLsb'_append_eq_right

theorem Ntf.reserved_of_word (n : Ntf) : n.word.extractLsb' 96 32 = 0 :=
  (BitVec.extractLsb'_append_eq_of_le (by decide)).trans <|
    (BitVec.extractLsb'_append_eq_of_le (by decide)).trans BitVec.extractLsb'_append_eq_left

/-- Settles O5: the status words by evaluation, the rest field by field. -/
theorem portWords : Obligations.PortWords := by
  refine ⟨by decide, Status.toInt_word, fun r => ⟨r.status_of_word, r.token_of_word⟩,
    fun n => ⟨n.cb_of_word, ?_, n.tok_of_word, n.reserved_of_word⟩⟩
  rw [n.kind_of_word]
  cases n.kind <;> rfl

end Sys2Proof.Machine
end

section
/-!
PROOFS. Who writes the key (spec/40_key_schedule.md R89, R91; spec/10_state.md R21, R22): no operation, no engine step and no command
but a completed `SET_KEY` changes `RK` or `KEY_VALID`, and that one leaves a key expansion in `RK`.
-/

namespace Sys2Proof.Machine

/-- What is held of the key: `RK` and `KEY_VALID`. -/
def State.keyView (s : State) : RoundKeys × Bool := (s.rk, s.keyValid)

theorem State.keyView_eq_iff {s t : State} : t.keyView = s.keyView ↔ t.rk = s.rk ∧ t.keyValid = s.keyValid := by
  simp [State.keyView]

theorem State.KeyInv.congr {s t : State} (h : s.KeyInv) (hv : t.keyView = s.keyView) : t.KeyInv := by
  obtain ⟨hrk, hvalid⟩ := State.keyView_eq_iff.1 hv
  simpa only [State.KeyInv, hrk, hvalid] using h

/-- From `s` to `t` the `SET_KEY` with descriptor `w` has completed (R80). -/
structure KeyInstalled (w : Desc) (s t : State) : Prop where
  decoded : ∃ a0, decode w = .ok (.setKey a0 16)
  quiet : s.q = []
  valid : t.keyValid = true
  expanded : ∃ key, t.rk = keyExpansion key
  answered : t.rsps = s.rsps ++ [{ status := .ok, token := 0 }]

theorem OpFrame.keyView_eq {p : Op} {s t : State} (h : OpFrame p s t) : t.keyView = s.keyView := by
  rw [h.regs]
  rfl

theorem EngineMove.keyView_eq {s t : State} (h : EngineMove s t) : t.keyView = s.keyView := by
  cases h with
  | none | fault => rfl
  | start _ _ _ _ _ _ ran => exact (opStart_ok ran).1.keyView_eq
  | chunk _ _ _ _ _ _ _ ran => exact (opChunk_ok ran).1.keyView_eq
  | finish _ _ _ _ _ _ _ ran => exact (opFinish_ok ran).1.keyView_eq

theorem CommandStep.keyView_eq_or_installed {w : Desc} {s t : State} (h : CommandStep w s t) :
    t.keyView = s.keyView ∨ KeyInstalled w s t := by
  cases h with
  | rejected | held | keyFault | submitted => exact .inl rfl
  | installed a0 dec quiet => exact .inr ⟨⟨a0, dec⟩, quiet, rfl, ⟨_, rfl⟩, rfl⟩
  | transformed _ _ _ _ ran => exact .inl (ctrRun_ok ran).1.keyView_eq
  | transformFault _ _ _ _ ran => exact .inl (ctrRun_error ran).1.keyView_eq

/-- A move clears `KEY_VALID` by a reset, keeps the key, or completes the `SET_KEY` that is held or presented. -/
theorem Move.keyView_cases {r t : State} {a : Turn} (h : Move r a t) :
    (a = .reset ∧ t.keyValid = false) ∨ t.keyView = r.keyView ∨
      ∃ w, (r.port = .held w ∨ r.prog.head? = some (.command w)) ∧ KeyInstalled w r t := by
  cases h with
  | reset => exact .inl ⟨rfl, rfl⟩
  | engine _ move => exact .inr (.inl move.keyView_eq)
  | wait | load | store => exact .inr (.inl rfl)
  | resumed w _ port _ ran => exact .inr (ran.keyView_eq_or_installed.imp_right fun hi => ⟨w, .inl port, hi⟩)
  | presented w rest _ _ prog _ ran =>
    refine .inr (ran.keyView_eq_or_installed.imp_right fun hi => ⟨w, .inr (by simp [prog]), ?_⟩)
    exact ⟨hi.decoded, hi.quiet, hi.valid, hi.expanded, hi.answered⟩

/-- Settles O59: after a reset no key is valid, and a key that a step installs is an expansion. -/
theorem stepKeepsKeySchedule : Obligations.StepKeepsKeySchedule := by
  intro s t hs h
  obtain ⟨-, hvalid⟩ | hview | ⟨w, -, hi⟩ := (step_move h).keyView_cases
  · exact fun hkey => absurd hkey (by simp [hvalid])
  · exact hs.congr hview
  · exact fun _ => hi.expanded

/-- Settles O47: the turn is no reset, so the step keeps the key or completes a `SET_KEY`. -/
theorem onlySetKeyWritesKey : Obligations.OnlySetKeyWritesKey := by
  intro s t hturn h
  obtain ⟨hreset, -⟩ | hview | ⟨w, hw, hi⟩ := (step_move h).keyView_cases
  · exact absurd hreset hturn
  · exact .inl (State.keyView_eq_iff.1 hview)
  · obtain ⟨a0, dec⟩ := hi.decoded
    exact .inr ⟨hi.valid, hi.quiet, hi.answered, w, a0, dec, hw⟩

end Sys2Proof.Machine
end

section
/-!
PROOFS. The command `SET_KEY` (spec/40_key_schedule.md R80, R91): its outcomes in the order of its checks, and its frame.
-/

namespace Sys2Proof.Machine

open Sys2Proof.Claims

/-- The 16 bytes that `SET_KEY` reads, as a block. -/
theorem blockOfBytes_readBytes (m : Memory) (a : Nat) :
    blockOfBytes (Memory.readBytes m a 16) = Vector.ofFn fun j => Memory.read m (a + j.val) := by
  simp only [blockOfBytes, Memory.readBytes_getD m a 16 _ 0 (Fin.isLt _)]

/-- `SET_KEY`, spelled out as whole next states (R80, R91, R175). -/
theorem exec_setKey_eq (a0 l0 : Word) (s : State) :
    exec (.setKey a0 l0) s =
      if l0 ≠ 16 then rejected s .invalidKeyLength
      else if ¬ a0.toNat + 16 ≤ memSize then rejected s .illegalCommand
      else if s.q ≠ [] then .next { s with port := .held (encode (.setKey a0 l0)) }
      else if Platform.allMapped s.plat a0.toNat 16 then
        .next { s with
          port := .free, keyValid := true,
          rk := keyExpansion (Vector.ofFn fun j => Memory.read s.mem (a0.toNat + j.val)),
          rsps := s.rsps ++ [{ status := .ok, token := 0 }] }
      else .next { s with port := .held (encode (.setKey a0 l0)), fatal := true } := by
  have hregion : (regionOk a0 16 = false) = ¬ a0.toNat + 16 ≤ memSize := by
    rw [← regionOk_iff, Bool.not_eq_true]
  rw [← blockOfBytes_readBytes]
  unfold exec execSetKey
  simp only [hregion, installFrom_eq, apply_ite settle]
  rfl

/-- Settles O25: every check passes and the 16 bytes are mapped. -/
theorem setKeyInstalls : Obligations.SetKeyInstalls := by
  intro a0 s inside quiet mapped
  rw [exec_setKey_eq, if_neg (by simp), if_neg (by simpa using inside), if_neg (by simpa using quiet),
    if_pos ((Platform.allMapped_iff s.plat a0.toNat 16).2 mapped)]

/-- Settles O26: one check fails, those before it pass. -/
theorem setKeyOtherwise : Obligations.SetKeyOtherwise := by
  intro a0 l0 s
  rw [exec_setKey_eq]
  refine ⟨fun hlen => if_pos hlen, fun hlen outside => ?_, fun hlen inside busy => ?_, fun hlen inside quiet hole => ?_⟩
  · rw [if_neg (not_not.2 hlen), if_pos (by omega)]
  · rw [if_neg (not_not.2 hlen), if_neg (not_not.2 inside), if_pos busy]
  · rw [if_neg (not_not.2 hlen), if_neg (not_not.2 inside), if_neg (not_not.2 quiet),
      if_neg (by simp [Platform.allMapped_eq_false_iff.2 hole])]

/-- Settles O27, outcome by outcome. -/
theorem setKeyFrame : Obligations.SetKeyFrame := by
  intro a0 l0 s t h
  have frame : t = { s with keyValid := t.keyValid, rk := t.rk, fatal := t.fatal, port := t.port, rsps := t.rsps } := by
    rw [exec_setKey_eq] at h
    repeat' split at h
    all_goals
      obtain rfl := Host.Outcome.next.inj h
      rfl
  exact ⟨frame, fun x => by rw [frame]⟩

end Sys2Proof.Machine
end

section
/-!
PROOFS. The words of the key expansion (spec/40_key_schedule.md R81 to R84, R88): each new word is the recurrence's, the words
before it stay where they are, and the round keys are the words in order.
-/

namespace Sys2Proof.Machine

/-! ### One word -/

theorem getElem_xorQuad (a b : Quad) (k : Fin 4) : (xorQuad a b)[k] = a[k] ^^^ b[k] := by
  fin_cases k <;> rfl

/-- The temporary of R81, byte by byte: the round constant enters byte 0 only (R84). -/
theorem getElem_schedTemp (i : Nat) (prev : Quad) (k : Fin 4) :
    (schedTemp i prev)[k] =
      if i % 4 = 0 then sbox prev[(k.val + 1) % 4] ^^^ (if k = 0 then rcon (i / 4) else 0) else prev[k] := by
  unfold schedTemp
  split
  · fin_cases k <;> rfl
  · rfl

/-! ### The list of words -/

/-- The word after the words `ws`, newest first (R81). -/
def nextWord (ws : List Quad) : Quad :=
  xorQuad (ws.getD 3 zeroQuad) (schedTemp ws.length (ws.getD 0 zeroQuad))

theorem expandWords_succ (n : Nat) (ws : List Quad) :
    expandWords (n + 1) ws = expandWords n (nextWord ws :: ws) := rfl

theorem length_expandWords (n : Nat) (ws : List Quad) : (expandWords n ws).length = ws.length + n := by
  induction n generalizing ws with
  | zero => rfl
  | succ n ih => rw [expandWords_succ, ih, List.length_cons, Nat.add_right_comm, Nat.add_assoc]

theorem suffix_expandWords (n : Nat) (ws : List Quad) : ws <:+ expandWords n ws := by
  induction n generalizing ws with
  | zero => exact List.suffix_rfl
  | succ n ih => exact (List.suffix_cons _ ws).trans (ih _)

/-- The words so far keep their indices. -/
theorem getD_reverse_expandWords (n : Nat) {ws : List Quad} {i : Nat} (hi : i < ws.length) :
    (expandWords n ws).reverse.getD i zeroQuad = ws.getD (ws.length - 1 - i) zeroQuad := by
  have hi' : i < ws.reverse.length := by simpa using hi
  have hget := (suffix_expandWords n ws).reverse.getElem hi'
  rw [← List.getD_reverse i hi, List.getD_eq_getElem _ _ hi', hget, List.getD_eq_getElem]

/-- The recurrence of R81, for the words added to `ws`. -/
theorem expandWords_recurrence (n : Nat) {ws : List Quad} (hws : 4 ≤ ws.length) {i : Nat} (hlow : ws.length ≤ i)
    (hhigh : i < ws.length + n) :
    (expandWords n ws).reverse.getD i zeroQuad =
      xorQuad ((expandWords n ws).reverse.getD (i - 4) zeroQuad)
        (schedTemp i ((expandWords n ws).reverse.getD (i - 1) zeroQuad)) := by
  induction n generalizing ws with
  | zero => omega
  | succ n ih =>
    rw [expandWords_succ]
    obtain rfl | hlt := Nat.eq_or_lt_of_le hlow
    · rw [getD_reverse_expandWords n (by simp), getD_reverse_expandWords n (by simp),
        getD_reverse_expandWords n (by simp)]
      have h4 : ws.length - (ws.length - 4) = 4 := by omega
      have h1 : ws.length - (ws.length - 1) = 1 := by omega
      simp [nextWord, h4, h1]
    · exact ih (by simp; omega) hlt (by simp; omega)

/-- The first four words of the expansion, newest first: the bytes of the key (R81). -/
def seedWords (key : Block) : List Quad :=
  [ #v[key[12], key[13], key[14], key[15]], #v[key[8], key[9], key[10], key[11]],
    #v[key[4], key[5], key[6], key[7]], #v[key[0], key[1], key[2], key[3]] ]

theorem keyWords_eq (key : Block) : keyWords key = (expandWords 40 (seedWords key)).reverse := rfl

theorem length_keyWords (key : Block) : (keyWords key).length = 44 := by
  rw [keyWords_eq, List.length_reverse, length_expandWords]
  rfl

/-- Words 0 to 3 are the key's bytes in order (R81). -/
theorem getElem_keyWords_seed (key : Block) (i k : Fin 4) :
    ((keyWords key).getD i.val zeroQuad)[k] = key[4 * i.val + k.val] := by
  have hi : i.val < (seedWords key).length := i.isLt
  rw [keyWords_eq, getD_reverse_expandWords 40 hi]
  fin_cases i <;> fin_cases k <;> rfl

theorem keyWords_recurrence (key : Block) {i : Nat} (hlow : 4 ≤ i) (hhigh : i < 44) :
    (keyWords key).getD i zeroQuad =
      xorQuad ((keyWords key).getD (i - 4) zeroQuad) (schedTemp i ((keyWords key).getD (i - 1) zeroQuad)) :=
  expandWords_recurrence 40 (ws := seedWords key) le_rfl hlow hhigh

/-- Settles O9: the recurrence of the words, byte by byte. -/
theorem keyWordsFollowRecurrence : Obligations.KeyWordsFollowRecurrence := by
  refine fun key => ⟨length_keyWords key, getElem_keyWords_seed key, fun i hlow hhigh k => ?_⟩
  rw [keyWords_recurrence key hlow hhigh, getElem_xorQuad, getElem_schedTemp]

/-! ### The round keys -/

theorem getElem_keyExpansion (key : Block) (r : Fin 11) {j : Nat} (hj : j < 16) :
    ((keyExpansion key)[r])[j] = ((keyWords key).getD (4 * r.val + j / 4) zeroQuad)[j % 4] := by
  simp [keyExpansion]

/-- Settles O10: byte `j` of a round key is byte `j % 4` of its word `j / 4`, and the first four words are the key. -/
theorem roundKeysAreTheWords : Obligations.RoundKeysAreTheWords := by
  refine fun key => ⟨fun r c k => ?_, Vector.ext fun j hj => ?_⟩
  · have hdiv : (4 * c.val + k.val) / 4 = c.val := by omega
    have hmod : (4 * c.val + k.val) % 4 = k.val := by omega
    rw [getElem_keyExpansion key r (by omega)]
    simp only [hdiv, hmod]
    rfl
  · have hseed := getElem_keyWords_seed key ⟨j / 4, by omega⟩ ⟨j % 4, by omega⟩
    have hj' : 4 * (j / 4) + j % 4 = j := Nat.div_add_mod j 4
    simp only [hj'] at hseed
    have hround := getElem_keyExpansion key 0 hj
    simp only [Fin.val_zero, Nat.mul_zero, Nat.zero_add] at hround
    exact hround.trans hseed

/-! ### The round constants -/

/-- Settles O11: the constants by evaluation, the temporary at its four bytes. -/
theorem roundConstants : Obligations.RoundConstants := by
  refine ⟨by decide, fun j hlow hhigh => ?_, fun i t hi => ?_⟩
  · interval_cases j <;> rfl
  · simp [schedTemp, hi, xorQuad]

end Sys2Proof.Machine
end

section
/-!
PROOFS. The field of R87 and the S-box (spec/40_key_schedule.md R85, R86): `xtime` is linear, so the product, a xor of `xtime`
powers, is additive in both arguments; the S-box is a composition of two bijections.
-/

namespace Sys2Proof.Machine

/-! ### Multiplication by `x` -/

theorem toNat_xtime (a : Byte) :
    (xtime a).toNat = if a.toNat < 0x80 then 2 * a.toNat % 256 else Nat.xor (2 * a.toNat % 256) 0x1b := by
  have hshift : (a <<< 1).toNat = 2 * a.toNat % 256 := by simp [Nat.shiftLeft_eq, Nat.mul_comm]
  unfold xtime
  split
  · exact hshift
  · rw [BitVec.toNat_xor, hshift]
    rfl

/-- `xtime` by the bit that it shifts out. -/
theorem xtime_eq (a : Byte) : xtime a = (a <<< 1) ^^^ (if a.msb then 0x1b else 0) := by
  have hmsb : a.msb = decide (¬ a.toNat < 0x80) := by simp [BitVec.msb_eq_decide]
  by_cases h : a.toNat < 0x80 <;> simp [xtime, hmsb, h]

theorem xtime_xor (a b : Byte) : xtime (a ^^^ b) = xtime a ^^^ xtime b := by
  have hbit : ∀ p q : Bool,
      (if p ^^ q then (0x1b : Byte) else 0) = (if p then 0x1b else 0) ^^^ (if q then 0x1b else 0) := by
    decide
  rw [xtime_eq, xtime_eq, xtime_eq, BitVec.shiftLeft_xor_distrib, BitVec.msb_xor, hbit]
  ac_rfl

theorem xtimes_eq_iterate (k : Nat) (a : Byte) : xtimes k a = xtime^[k] a := by
  induction k with
  | zero => rfl
  | succ k ih => rw [xtimes, ih, Function.iterate_succ_apply']

theorem xtimes_xor (k : Nat) (a b : Byte) : xtimes k (a ^^^ b) = xtimes k a ^^^ xtimes k b := by
  induction k with
  | zero => rfl
  | succ k ih => rw [xtimes, ih, xtime_xor]; rfl

/-! ### The product -/

/-- What bit `k` of `b` adds to the product (R87). -/
def gmulTerm (a b : Byte) (k : Nat) : Byte := if b.getLsbD k then xtimes k a else 0

theorem gmul_eq (a b : Byte) :
    gmul a b = gmulTerm a b 0 ^^^ gmulTerm a b 1 ^^^ gmulTerm a b 2 ^^^ gmulTerm a b 3 ^^^ gmulTerm a b 4 ^^^
      gmulTerm a b 5 ^^^ gmulTerm a b 6 ^^^ gmulTerm a b 7 := by
  have hterm : ∀ (acc : Byte) (k : Nat), (if b.getLsbD k then acc ^^^ xtimes k a else acc) = acc ^^^ gmulTerm a b k := by
    intro acc k
    unfold gmulTerm
    split <;> simp
  simp [gmul, hterm, List.range_succ]

theorem gmulTerm_xor_left (a b c : Byte) (k : Nat) : gmulTerm (a ^^^ b) c k = gmulTerm a c k ^^^ gmulTerm b c k := by
  unfold gmulTerm
  split
  · exact xtimes_xor k a b
  · rfl

theorem gmulTerm_xor_right (a b c : Byte) (k : Nat) : gmulTerm c (a ^^^ b) k = gmulTerm c a k ^^^ gmulTerm c b k := by
  unfold gmulTerm
  rw [BitVec.getLsbD_xor]
  cases a.getLsbD k <;> cases b.getLsbD k <;> simp

theorem gmul_xor_left (a b c : Byte) : gmul (a ^^^ b) c = gmul a c ^^^ gmul b c := by
  simp only [gmul_eq, gmulTerm_xor_left]
  ac_rfl

theorem gmul_xor_right (a b c : Byte) : gmul c (a ^^^ b) = gmul c a ^^^ gmul c b := by
  simp only [gmul_eq, gmulTerm_xor_right]
  ac_rfl

/-- A byte with one bit set picks one power of `xtime`. -/
theorem gmul_shiftLeft_one (a : Byte) {k : Nat} (hk : k < 8) : gmul a ((1 : Byte) <<< k) = xtime^[k] a := by
  have hterm : ∀ j, gmulTerm a ((1 : Byte) <<< k) j = if j = k then xtimes k a else 0 := by
    intro j
    have hbit : ((1 : Byte) <<< k).getLsbD j = decide (k = j) := by
      rw [show (1 : Byte) <<< k = BitVec.twoPow 8 k from rfl, BitVec.getLsbD_twoPow, decide_eq_true hk, Bool.true_and]
    unfold gmulTerm
    rw [hbit]
    by_cases h : k = j <;> simp [h, eq_comm]
  rw [gmul_eq, ← xtimes_eq_iterate]
  simp only [hterm]
  interval_cases k <;> simp

theorem gmul_one (a : Byte) : gmul a 1 = a := gmul_shiftLeft_one a (k := 0) (by decide)

theorem gmul_two (a : Byte) : gmul a 2 = xtime a := gmul_shiftLeft_one a (k := 1) (by decide)

theorem gmul_three (a : Byte) : gmul a 3 = xtime a ^^^ a := by
  rw [show (3 : Byte) = 2 ^^^ 1 from rfl, gmul_xor_right, gmul_two, gmul_one]

/-! ### The S-box and the inverse

The table is compared with the powers of `ginv` once; after that an inverse is read off the table. -/

/-- A claim about all bytes is one about 256 numbers. -/
theorem forall_byte_iff {P : Byte → Prop} : (∀ a, P a) ↔ ∀ i : Fin 256, P (BitVec.ofFin i) :=
  ⟨fun h _ => h _, fun h a => h a.toFin⟩

theorem sbox_eq_sboxAffine_ginv : ∀ a : Byte, sbox a = sboxAffine (ginv a) := by
  rw [forall_byte_iff]
  decide +kernel

/-- The inverse of the affine map of R85. -/
def sboxAffineInv (b : Byte) : Byte := b.rotateLeft 1 ^^^ b.rotateLeft 3 ^^^ b.rotateLeft 6 ^^^ 0x05

theorem sboxAffineInv_sboxAffine : ∀ b : Byte, sboxAffineInv (sboxAffine b) = b := by
  rw [forall_byte_iff]
  decide +kernel

theorem sboxAffine_sboxAffineInv : ∀ b : Byte, sboxAffine (sboxAffineInv b) = b := by
  rw [forall_byte_iff]
  decide +kernel

theorem ginv_eq_sboxAffineInv_sbox (a : Byte) : ginv a = sboxAffineInv (sbox a) := by
  rw [sbox_eq_sboxAffine_ginv, sboxAffineInv_sboxAffine]

theorem ginv_zero : ginv 0 = 0 := by
  rw [ginv_eq_sboxAffineInv_sbox]
  decide

theorem gmul_ginv : ∀ a : Byte, a ≠ 0 → gmul a (ginv a) = 1 := by
  simp only [ginv_eq_sboxAffineInv_sbox]
  rw [forall_byte_iff]
  decide +kernel

theorem ginv_ginv : ∀ a : Byte, ginv (ginv a) = a := by
  simp only [ginv_eq_sboxAffineInv_sbox]
  rw [forall_byte_iff]
  decide +kernel

/-- Settles O13: the product's laws, and the inverse at each of the 256 bytes. -/
theorem fieldMultiplication : Obligations.FieldMultiplication :=
  ⟨toNat_xtime, fun a _ hk => gmul_shiftLeft_one a hk, fun a b c => ⟨gmul_xor_left a b c, gmul_xor_right a b c⟩,
    fun a => ⟨gmul_one a, gmul_two a, gmul_three a⟩, gmul_ginv, ginv_zero⟩

theorem sbox_ne_self : ∀ a : Byte, sbox a ≠ a := by
  rw [forall_byte_iff]
  decide +kernel

theorem sbox_bijective : Function.Bijective sbox := by
  have haffine : Function.Bijective sboxAffine :=
    Function.bijective_iff_has_inverse.2 ⟨sboxAffineInv, sboxAffineInv_sboxAffine, sboxAffine_sboxAffineInv⟩
  have hginv : Function.Involutive ginv := ginv_ginv
  rw [show sbox = sboxAffine ∘ ginv from funext sbox_eq_sboxAffine_ginv]
  exact haffine.comp hginv.bijective

/-- Settles O12: the table against the map at each byte, and the two bijections it is composed of. -/
theorem sboxIsAffineOfInverse : Obligations.SboxIsAffineOfInverse :=
  ⟨sbox_eq_sboxAffine_ginv, sbox_bijective, sbox_ne_self⟩

/-- Settles O17, by evaluating the cipher on the vector. -/
theorem nistVector : Obligations.NistVector := by
  unfold Obligations.NistVector
  decide +kernel

end Sys2Proof.Machine
end

section
/-!
PROOFS. The block cipher (spec/41_block_cipher.md R100 to R106): each step byte by byte, and each step as a permutation of
the blocks. `ShiftRows` and `MixColumns` are permutations because four applications of either give the block back.
-/

namespace Sys2Proof.Machine

theorem block_ext {s t : Block} (h : ∀ j : Fin 16, s[j] = t[j]) : s = t :=
  Vector.ext fun j hj => h ⟨j, hj⟩

/-! ### The steps byte by byte -/

theorem getElem_addRoundKey (s k : Block) (j : Fin 16) : (addRoundKey s k)[j] = s[j] ^^^ k[j] :=
  Vector.getElem_ofFn _

theorem getElem_subBytes (s : Block) (j : Fin 16) : (subBytes s)[j] = sbox s[j] :=
  Vector.getElem_ofFn _

/-- The byte index that `ShiftRows` moves to index `j` (R104). -/
def shiftSource (j : Fin 16) : Fin 16 := ⟨j.val % 4 + 4 * ((j.val / 4 + j.val % 4) % 4), by omega⟩

theorem getElem_shiftRows (s : Block) (j : Fin 16) : (shiftRows s)[j] = s[shiftSource j] :=
  Vector.getElem_ofFn _

/-- Row `r` is rotated left by `r` columns (R104). -/
theorem getElem_shiftRows_row (s : Block) (r c : Fin 4) :
    (shiftRows s)[r.val + 4 * c.val] = s[r.val + 4 * ((c.val + r.val) % 4)] := by
  have hsource : shiftSource ⟨r.val + 4 * c.val, by omega⟩ = ⟨r.val + 4 * ((c.val + r.val) % 4), by omega⟩ := by
    apply Fin.ext
    simp only [shiftSource]
    omega
  simpa only [hsource, Fin.getElem_fin] using getElem_shiftRows s ⟨r.val + 4 * c.val, by omega⟩

theorem shiftRows_eq_permutation (s : Block) :
    shiftRows s = #v[s[0], s[5], s[10], s[15], s[4], s[9], s[14], s[3], s[8], s[13], s[2], s[7], s[12], s[1], s[6],
      s[11]] :=
  block_ext fun j => (getElem_shiftRows s j).trans (by fin_cases j <;> rfl)

/-- The index `k` rows below `j` in the column of `j`, rows counted modulo 4 (R101). -/
def below (k : Nat) (j : Fin 16) : Fin 16 := ⟨4 * (j.val / 4) + (j.val + k) % 4, by omega⟩

theorem below_zero (j : Fin 16) : below 0 j = j :=
  Fin.ext (Nat.div_add_mod j.val 4)

theorem below_add_four (k : Nat) (j : Fin 16) : below (k + 4) j = below k j := by
  simp only [below, ← Nat.add_assoc, Nat.add_mod_right]

theorem below_column (k : Nat) (c r : Fin 4) :
    below k ⟨4 * c.val + r.val, by omega⟩ = ⟨4 * c.val + (r.val + k) % 4, by omega⟩ := by
  apply Fin.ext
  simp only [below]
  omega

theorem below_below (k l : Nat) (j : Fin 16) : below l (below k j) = below (k + l) j := by
  apply Fin.ext
  simp only [below]
  omega

/-- A byte of the mixed column that has the bytes `a`, `b`, `c`, `d` from its row on downwards (R105). -/
def mixRow (a b c d : Byte) : Byte := gmul a 2 ^^^ gmul b 3 ^^^ c ^^^ d

theorem getElem_mixColumns (s : Block) (j : Fin 16) :
    (mixColumns s)[j] = mixRow s[below 0 j] s[below 1 j] s[below 2 j] s[below 3 j] :=
  Vector.getElem_ofFn _

theorem getElem_mixColumns_row (s : Block) (c r : Fin 4) :
    (mixColumns s)[4 * c.val + r.val] =
      mixRow s[4 * c.val + (r.val + 0) % 4] s[4 * c.val + (r.val + 1) % 4] s[4 * c.val + (r.val + 2) % 4]
        s[4 * c.val + (r.val + 3) % 4] := by
  simpa only [below_column, Fin.getElem_fin] using getElem_mixColumns s ⟨4 * c.val + r.val, by omega⟩

/-- Column `c` of `MixColumns`, with the bytes of the column in the order of R105. -/
theorem mixColumns_column (s : Block) (c : Fin 4) :
    (mixColumns s)[4 * c.val + 0] =
      gmul s[4 * c.val + 0] 2 ^^^ gmul s[4 * c.val + 1] 3 ^^^ s[4 * c.val + 2] ^^^ s[4 * c.val + 3] ∧
    (mixColumns s)[4 * c.val + 1] =
      s[4 * c.val + 0] ^^^ gmul s[4 * c.val + 1] 2 ^^^ gmul s[4 * c.val + 2] 3 ^^^ s[4 * c.val + 3] ∧
    (mixColumns s)[4 * c.val + 2] =
      s[4 * c.val + 0] ^^^ s[4 * c.val + 1] ^^^ gmul s[4 * c.val + 2] 2 ^^^ gmul s[4 * c.val + 3] 3 ∧
    (mixColumns s)[4 * c.val + 3] =
      gmul s[4 * c.val + 0] 3 ^^^ s[4 * c.val + 1] ^^^ s[4 * c.val + 2] ^^^ gmul s[4 * c.val + 3] 2 := by
  have row := getElem_mixColumns_row s c
  have rowOne (a₀ a₁ a₂ a₃ : Byte) : mixRow a₁ a₂ a₃ a₀ = a₀ ^^^ gmul a₁ 2 ^^^ gmul a₂ 3 ^^^ a₃ := by
    unfold mixRow
    ac_rfl
  have rowTwo (a₀ a₁ a₂ a₃ : Byte) : mixRow a₂ a₃ a₀ a₁ = a₀ ^^^ a₁ ^^^ gmul a₂ 2 ^^^ gmul a₃ 3 := by
    unfold mixRow
    ac_rfl
  have rowThree (a₀ a₁ a₂ a₃ : Byte) : mixRow a₃ a₀ a₁ a₂ = gmul a₀ 3 ^^^ a₁ ^^^ a₂ ^^^ gmul a₃ 2 := by
    unfold mixRow
    ac_rfl
  exact ⟨row 0, (row 1).trans (rowOne _ _ _ _), (row 2).trans (rowTwo _ _ _ _), (row 3).trans (rowThree _ _ _ _)⟩

/-- Settles O14, step by step. -/
theorem cipherStepsByteByByte : Obligations.CipherStepsByteByByte := fun s k =>
  ⟨getElem_addRoundKey s k, getElem_subBytes s, getElem_shiftRows_row s, shiftRows_eq_permutation s, mixColumns_column s⟩

/-! ### The rounds -/

/-- The cipher as a fold over the round numbers (R106). -/
theorem encryptBlock_eq_foldl (rk : RoundKeys) (x : Block) :
    encryptBlock rk x =
      finalRound
        ((List.range 9).foldl (fun s r => cipherRound s (rk.toList.getD (r + 1) zeroBlock)) (addRoundKey x rk[0]))
        rk[10] := by
  simp [encryptBlock, List.range_succ]

/-- Settles O15: the fold, with the two kinds of round unfolded. -/
theorem roundStructure : Obligations.RoundStructure := encryptBlock_eq_foldl

/-! ### The steps as permutations of the blocks -/

theorem bijective_addRoundKey (k : Block) : Function.Bijective (addRoundKey · k) := by
  have hinv : Function.Involutive (addRoundKey · k) := fun s => block_ext fun j => by
    rw [getElem_addRoundKey, getElem_addRoundKey, xor_cancel_right]
  exact hinv.bijective

theorem bijective_subBytes : Function.Bijective subBytes := by
  obtain ⟨unsbox, hleft, hright⟩ := Function.bijective_iff_has_inverse.1 sbox_bijective
  refine Function.bijective_iff_has_inverse.2 ⟨Vector.map unsbox, fun s => ?_, fun s => ?_⟩
  · refine block_ext fun j => ?_
    rw [Fin.getElem_fin, Vector.getElem_map, ← Fin.getElem_fin, getElem_subBytes, hleft]
  · refine block_ext fun j => ?_
    rw [getElem_subBytes, Fin.getElem_fin, Vector.getElem_map, hright]
    rfl

theorem bijective_of_four_times {f : Block → Block} (h : ∀ s, f (f (f (f s))) = s) : Function.Bijective f :=
  Function.bijective_iff_has_inverse.2 ⟨fun s => f (f (f s)), h, h⟩

theorem shiftSource_four_times : ∀ j, shiftSource (shiftSource (shiftSource (shiftSource j))) = j := by
  decide

theorem bijective_shiftRows : Function.Bijective shiftRows :=
  bijective_of_four_times fun s => block_ext fun j => by
    simp only [getElem_shiftRows, shiftSource_four_times]

theorem mixRow_eq (a b c d : Byte) : mixRow a b c d = xtime (a ^^^ b) ^^^ (b ^^^ c ^^^ d) := by
  rw [mixRow, gmul_two, gmul_three, xtime_xor]
  ac_rfl

/-- `MixColumns` twice on a column: modulo `x^4 + 1` the square of `3x^3 + x^2 + x + 2` is `4x^2 + 5`, so only the byte
itself and the one two rows below it remain. -/
theorem mixRow_twice (a b c d : Byte) :
    mixRow (mixRow a b c d) (mixRow b c d a) (mixRow c d a b) (mixRow d a b c) = a ^^^ xtime (xtime (a ^^^ c)) := by
  have xor_left_comm (x y z : Byte) : x ^^^ (y ^^^ z) = y ^^^ (x ^^^ z) := by ac_rfl
  simp only [mixRow_eq, xtime_xor, BitVec.xor_assoc, BitVec.xor_comm, xor_left_comm, xor_cancel_left]

theorem getElem_mixColumns_twice (s : Block) (j : Fin 16) :
    (mixColumns (mixColumns s))[j] = s[j] ^^^ xtime (xtime (s[j] ^^^ s[below 2 j])) := by
  simp only [getElem_mixColumns, below_below, below_zero, below_add_four, Nat.reduceAdd]
  exact mixRow_twice _ _ _ _

/-- The square of `MixColumns` keeps the xor of two opposite bytes, so that applied twice it adds the same byte twice. -/
theorem mixColumns_four_times (s : Block) : mixColumns (mixColumns (mixColumns (mixColumns s))) = s := by
  refine block_ext fun j => ?_
  have hopposite :
      s[j] ^^^ xtime (xtime (s[j] ^^^ s[below 2 j])) ^^^
        (s[below 2 j] ^^^ xtime (xtime (s[below 2 j] ^^^ s[j]))) = s[j] ^^^ s[below 2 j] := by
    rw [xor_comm s[below 2 j] s[j], xor_comm s[below 2 j], xor_assoc, xor_cancel_left]
  simp only [getElem_mixColumns_twice, below_below, Nat.reduceAdd, below_add_four, below_zero, hopposite,
    xor_cancel_right]

theorem bijective_mixColumns : Function.Bijective mixColumns := bijective_of_four_times mixColumns_four_times

/-! ### The cipher as a permutation of the blocks -/

theorem bijective_cipherRound (k : Block) : Function.Bijective (cipherRound · k) :=
  (bijective_addRoundKey k).comp (bijective_mixColumns.comp (bijective_shiftRows.comp bijective_subBytes))

theorem bijective_finalRound (k : Block) : Function.Bijective (finalRound · k) :=
  (bijective_addRoundKey k).comp (bijective_shiftRows.comp bijective_subBytes)

/-- A fold of permutations is a permutation. -/
theorem bijective_foldl {α β : Type} {f : α → β → α} (hf : ∀ b, Function.Bijective (f · b)) (bs : List β) :
    Function.Bijective fun a => bs.foldl f a := by
  induction bs with
  | nil => exact Function.bijective_id
  | cons b bs ih => exact ih.comp (hf b)

/-- Settles O16: the first key addition, the fold of the rounds and the last round are permutations. -/
theorem encryptBlockPermutes : Obligations.EncryptBlockPermutes := by
  intro rk
  have hrounds := bijective_foldl (fun r => bijective_cipherRound (rk.toList.getD (r + 1) zeroBlock)) (List.range 9)
  have hcomp := (bijective_finalRound rk[10]).comp (hrounds.comp (bijective_addRoundKey rk[0]))
  rwa [Function.comp_def, Function.comp_def, ← funext (encryptBlock_eq_foldl rk)] at hcomp

end Sys2Proof.Machine
end

section
/-!
PROOFS. The counter (spec/42_ctr_engine.md R123): `Inc128` as a number and on the counter's bytes, and how far an operation
advances it.
-/

namespace Sys2Proof.Machine

open Sys2Proof.Claims

theorem toNat_inc128 (c : BitVec 128) : (inc128 c).toNat = (c.toNat + 1) % 2 ^ 128 := by
  rw [inc128_eq, BitVec.toNat_add]
  rfl

@[simp] theorem length_incLow (bs : List Byte) : (incLow bs).length = bs.length := by
  induction bs with
  | nil => rfl
  | cons b bs ih =>
    rw [incLow]
    split <;> simp [ih]

/-- The carry past a byte that becomes 0 is the increment of the bytes above it. -/
theorem beValue_reverse_incLow (bs : List Byte) :
    beValue (incLow bs).reverse = (beValue bs.reverse + 1) % 256 ^ bs.length := by
  induction bs with
  | nil => rfl
  | cons b bs ih =>
    have hb := b.isLt
    have hv := beValue_lt bs.reverse
    rw [List.length_reverse] at hv
    rw [incLow, List.reverse_cons, beValue_concat, List.length_cons, pow_succ]
    split
    · next hne =>
      have hstep : (b + 1).toNat = b.toNat + 1 := by
        have : b.toNat + 1 ≠ 256 := fun h => hne (by bv_omega)
        bv_omega
      rw [List.reverse_cons, beValue_concat, hstep, Nat.mod_eq_of_lt (by omega), Nat.add_assoc]
    · next hzero =>
      have hlast : b.toNat = 255 := by
        have : b + 1 = 0 := Classical.not_not.1 hzero
        bv_omega
      rw [List.reverse_cons, beValue_concat, ih, hlast, show (0 : Byte).toNat = 0 from rfl, Nat.add_zero,
        ← Nat.mul_mod_mul_right, Nat.add_mul, Nat.add_assoc]

/-- 16 bytes, taken as a list, are the bytes of their number. -/
theorem toList_bytes128_be128 {bs : List Byte} (h : bs.length = 16) : (bytes128 (be128 bs)).toList = bs :=
  congrArg Vector.toList (bytes128_be128 ⟨bs.toArray, by simpa using h⟩)

theorem beValue_bytes128 (c : BitVec 128) : beValue (bytes128 c).toList = c.toNat := by
  rw [← be128_toNat (by simp), be128_bytes128]

/-- The byte-wise form of R123. -/
theorem toList_bytes128_inc128 (c : BitVec 128) :
    (bytes128 (inc128 c)).toList = (incLow (bytes128 c).toList.reverse).reverse := by
  have hlen : (incLow (bytes128 c).toList.reverse).reverse.length = 16 := by simp
  have hval : be128 (incLow (bytes128 c).toList.reverse).reverse = inc128 c := by
    refine BitVec.eq_of_toNat_eq ?_
    rw [be128_toNat hlen.le, beValue_reverse_incLow, List.reverse_reverse, beValue_bytes128, List.length_reverse,
      Vector.length_toList, toNat_inc128]
    norm_num
  rw [← hval, toList_bytes128_be128 hlen]

theorem ctrProcess_snd (rk : RoundKeys) (bs : List Byte) (c : BitVec 128) :
    (ctrProcess rk bs c).2 = c + BitVec.ofNat 128 (chunks bs.length) := rfl

/-- Settles O19: on bytes, `incLow` adds 1 to the base-256 value (`beValue_reverse_incLow`), and 16 bytes are determined by
their value. -/
theorem counterIncrement : Obligations.CounterIncrement := by
  refine ⟨toNat_inc128, toList_bytes128_inc128, by decide, fun rk bs c => ?_⟩
  rw [ctrProcess_snd, BitVec.toNat_add, BitVec.toNat_ofNat, Nat.add_mod_mod]
  rfl

end Sys2Proof.Machine
end

section
/-!
PROOFS. The counter-mode transform as a function (spec/42_ctr_engine.md R120 to R125, R133): it xors byte `k` of the data with
byte `k` of one keystream, and the statements about it are facts about that stream.
-/

namespace Sys2Proof.Machine

/-- Byte `k` of the keystream that starts at counter `c`: byte `k % 16` of the block of chunk `k / 16` (R121, R122). -/
def keystreamByte (rk : RoundKeys) (c : BitVec 128) (k : Nat) : Byte :=
  (keystream rk (c + BitVec.ofNat 128 (k / 16))).toList.getD (k % 16) 0

/-- The data xor the keystream that starts at counter `c`. -/
def xorKeystream (rk : RoundKeys) (c : BitVec 128) (bs : List Byte) : List Byte :=
  bs.mapIdx fun k b => b ^^^ keystreamByte rk c k

@[simp] theorem length_xorKeystream (rk : RoundKeys) (c : BitVec 128) (bs : List Byte) :
    (xorKeystream rk c bs).length = bs.length := List.length_mapIdx

theorem getD_xorKeystream (rk : RoundKeys) (c : BitVec 128) {bs : List Byte} {k : Nat} (hk : k < bs.length) :
    (xorKeystream rk c bs).getD k 0 = bs.getD k 0 ^^^ keystreamByte rk c k := by
  simp [xorKeystream, hk]

theorem xorKeystream_xorKeystream (rk : RoundKeys) (c : BitVec 128) (bs : List Byte) :
    xorKeystream rk c (xorKeystream rk c bs) = bs :=
  List.ext_getElem (by simp) fun k _ _ => by simp [xorKeystream]

theorem keystreamByte_of_lt (rk : RoundKeys) (c : BitVec 128) {k : Nat} (hk : k < 16) :
    keystreamByte rk c k = (keystream rk c).toList.getD k 0 := by
  simp [keystreamByte, Nat.div_eq_of_lt hk, Nat.mod_eq_of_lt hk]

/-- Past `n` whole blocks the stream goes on from the counter advanced by `n`. -/
theorem keystreamByte_add (rk : RoundKeys) (c : BitVec 128) (n k : Nat) :
    keystreamByte rk c (k + 16 * n) = keystreamByte rk (c + BitVec.ofNat 128 n) k := by
  rw [keystreamByte, keystreamByte, Nat.add_mul_mod_self_left, Nat.add_mul_div_left _ _ (by decide), Nat.add_comm,
    BitVec.ofNat_add, BitVec.add_assoc]

theorem xorKeystream_append (rk : RoundKeys) (c : BitVec 128) {b1 : List Byte} (b2 : List Byte) {n : Nat}
    (h : b1.length = 16 * n) :
    xorKeystream rk c (b1 ++ b2) = xorKeystream rk c b1 ++ xorKeystream rk (c + BitVec.ofNat 128 n) b2 := by
  simp only [xorKeystream, List.mapIdx_append, h, keystreamByte_add]

/-- One chunk, full or partial, is its bytes xor the stream (R120). -/
theorem xorBytes_keystream (rk : RoundKeys) (c : BitVec 128) {bs : List Byte} (h : bs.length ≤ 16) :
    xorBytes bs (keystream rk c).toList = xorKeystream rk c bs := by
  refine List.ext_getElem (by simpa [xorBytes] using h) fun k hk hk' => ?_
  have hk16 : k < 16 := by
    rw [length_xorKeystream] at hk'
    omega
  simp [xorBytes, xorKeystream, keystreamByte_of_lt rk c hk16, hk16]

theorem ctrBytes_eq_xorKeystream (rk : RoundKeys) (n : Nat) (c : BitVec 128) (bs : List Byte)
    (h : bs.length ≤ 16 * n) : ctrBytes rk n c bs = xorKeystream rk c bs := by
  induction n generalizing c bs with
  | zero =>
    obtain rfl := List.eq_nil_of_length_eq_zero (Nat.le_zero.1 h)
    rfl
  | succ n ih =>
    rw [ctrBytes, xorBytes_keystream rk c (by simp), ih _ _ (by rw [List.length_drop]; omega)]
    rcases Nat.lt_or_ge bs.length 16 with hlt | hge
    · rw [List.drop_eq_nil_of_le hlt.le, List.take_of_length_le hlt.le]
      exact List.append_nil _
    · rw [inc128_eq]
      have hfull : (bs.take 16).length = 16 * 1 := by simpa using hge
      have happ := xorKeystream_append rk c (bs.drop 16) hfull
      rw [List.take_append_drop] at happ
      exact happ.symm

theorem ctrProcess_fst (rk : RoundKeys) (bs : List Byte) (c : BitVec 128) :
    (ctrProcess rk bs c).1 = xorKeystream rk c bs :=
  ctrBytes_eq_xorKeystream rk _ c bs (by unfold chunks; omega)

/-- Settles O20: the transform is `xorKeystream`. -/
theorem ctrProcessByByte : Obligations.CtrProcessByByte := by
  intro rk bs c
  rw [ctrProcess_fst]
  exact ⟨length_xorKeystream rk c bs, fun k hk => getD_xorKeystream rk c hk⟩

/-- Settles O21: the same stream applied twice cancels. -/
theorem ctrProcessRoundTrip : Obligations.CtrProcessRoundTrip := by
  intro rk bs c
  rw [ctrProcess_fst, ctrProcess_fst, xorKeystream_xorKeystream]

theorem chunks_add_whole (n m : Nat) : chunks (16 * n + m) = n + chunks m := by
  unfold chunks
  omega

/-- Settles O22: `n` whole chunks use exactly `n` blocks of the stream. -/
theorem ctrProcessSplits : Obligations.CtrProcessSplits := by
  intro rk b1 b2 c n h
  have hfirst : (ctrProcess rk b1 c).2 = c + BitVec.ofNat 128 n := by
    rw [ctrProcess_snd, h]
    exact congrArg (c + BitVec.ofNat 128 ·) (chunks_add_whole n 0)
  refine Prod.ext ?_ ?_
  · rw [hfirst]
    simp only [ctrProcess_fst]
    exact xorKeystream_append rk c b2 h
  · rw [hfirst, ctrProcess_snd, ctrProcess_snd, List.length_append, h, chunks_add_whole, BitVec.ofNat_add,
      BitVec.add_assoc]

end Sys2Proof.Machine
end

section
/-!
PROOFS. The kind of a transform (spec/42_ctr_engine.md R125, spec/43_dispatcher.md R143): no step of an operation reads it,
and none reads the descriptor on the port. So the two synchronous commands of given operands, which differ in just these,
run alike.
-/

namespace Sys2Proof.Machine

open Sys2Proof.Claims

/-! ### The kind -/

section
variable (p : Op) (k : Kind)

theorem opStart_kind (s : State) : opStart { p with kind := k } s = opStart p s := rfl

theorem opChunk_kind (s : State) : opChunk { p with kind := k } s = opChunk p s := rfl

theorem opFinish_kind (s : State) : opFinish { p with kind := k } s = opFinish p s := rfl

theorem opChunks_kind (n : Nat) : opChunks { p with kind := k } n = opChunks p n := by
  induction n with
  | zero => rfl
  | succ n ih =>
    funext s
    rw [opChunks_succ, opChunks_succ, ih, opChunk_kind]

theorem ctrRun_kind (s : State) : ctrRun { p with kind := k } s = ctrRun p s := by
  simp only [ctrRun, opStart_kind, opChunks_kind, opFinish_kind]

theorem validate_kind (l1 : Word) (s : State) : validate { p with kind := k } l1 s = validate p l1 s := rfl

end

/-! ### The port -/

/-- The second state differs from the first at most in the port. -/
inductive SameButPort (s : State) : State → Prop where
  | intro (port : Port) : SameButPort s { s with port := port }

section
variable {p : Op} {s t : State}

theorem opStart_sameButPort (h : SameButPort s t) : SameFate SameButPort (opStart p s) (opStart p t) := by
  obtain ⟨port⟩ := h
  rw [opStart_eq, opStart_eq]
  exact rel_ite (fun _ => .ok (.intro port)) fun _ =>
    rel_ite (fun _ => .ok (.intro port)) fun _ => .error (.intro port)

theorem opChunk_sameButPort (h : SameButPort s t) : SameFate SameButPort (opChunk p s) (opChunk p t) := by
  obtain ⟨port⟩ := h
  rw [opChunk_eq, opChunk_eq]
  exact rel_ite (fun _ => .ok (.intro port)) fun _ => .error (.intro port)

theorem opChunks_sameButPort (n : Nat) (h : SameButPort s t) :
    SameFate SameButPort (opChunks p n s) (opChunks p n t) := by
  induction n generalizing s t with
  | zero => exact .ok h
  | succ n ih => exact (opChunk_sameButPort h).bind fun _ _ => ih

theorem opFinish_sameButPort (h : SameButPort s t) : SameFate SameButPort (opFinish p s) (opFinish p t) := by
  obtain ⟨port⟩ := h
  rw [opFinish_eq, opFinish_eq]
  dsimp only
  generalize (bytes128 s.ctrw).toList = bs
  exact rel_ite (fun _ => .ok (.intro port)) fun _ =>
    rel_ite (fun _ => .ok (.intro port)) fun _ => .error (.intro port)

theorem ctrRun_sameButPort (h : SameButPort s t) : SameFate SameButPort (ctrRun p s) (ctrRun p t) :=
  (opStart_sameButPort h).bind fun _ _ h => (opChunks_sameButPort _ h).bind fun _ _ => opFinish_sameButPort

end

/-! ### The synchronous commands -/

section
variable {w : Desc} {p : Op} {l1 : Word} {s t : State}

theorem runSync_of_invalid {st : Status} (h : validate p l1 s = some st) :
    runSync w p l1 s = .next (s.respond st 0) := by
  have h : validate p l1 (s.present w) = some st := h
  simp only [runSync, h]
  rfl

theorem runSync_of_busy (h : validate p l1 s = none) (hq : s.q ≠ []) : runSync w p l1 s = .next (s.present w) := by
  have h : validate p l1 (s.present w) = none := h
  simp only [runSync, h]
  exact if_pos hq

theorem runSync_of_valid (h : validate p l1 s = none) (hq : s.q = []) :
    runSync w p l1 s = endSync (ctrRun p (s.present w)) := by
  have h : validate p l1 (s.present w) = none := h
  simp only [runSync, h]
  exact if_neg (not_not.2 hq)

theorem runSync_kind (k : Kind) : runSync w { p with kind := k } l1 s = runSync w p l1 s := by
  simp only [runSync, validate_kind, ctrRun_kind]

/-- Where the port is free afterwards, the descriptor that was on it has left no mark. -/
theorem runSync_of_free (w' : Desc) (hfree : t.port = .free) (h : runSync w p l1 s = .next t) :
    runSync w' p l1 s = .next t := by
  cases hv : validate p l1 s with
  | some st =>
    rw [runSync_of_invalid hv] at h ⊢
    exact h
  | none =>
    by_cases hq : s.q = []
    · rw [runSync_of_valid hv hq] at h ⊢
      have same : SameFate SameButPort (ctrRun p (s.present w)) (ctrRun p (s.present w')) :=
        ctrRun_sameButPort (.intro (.held w'))
      generalize hr : ctrRun p (s.present w) = r at h same
      generalize ctrRun p (s.present w') = r' at same ⊢
      cases same with
      | ok hu =>
        obtain ⟨port⟩ := hu
        exact h
      | @error u _ _ =>
        obtain rfl := Host.Outcome.next.inj h
        have hport : u.port = .held w := by
          rw [(ctrRun_error hr).1.regs]
          rfl
        rw [State.releaseScratch_port, hport] at hfree
        cases hfree
    · rw [runSync_of_busy hv hq] at h
      obtain rfl := Host.Outcome.next.inj h
      cases hfree

end

/-- Settles O33: `runSync_of_free` changes the descriptor and `runSync_kind` the kind; the three steps of an operation are the
same by definition. -/
theorem kindChangesNothing : Obligations.KindChangesNothing := by
  refine ⟨fun a0 l0 a1 l1 s t hfree => ?_, fun p k s => ⟨opStart_kind p k s, opChunk_kind p k s, opFinish_kind p k s⟩⟩
  have hdec : exec (.decryptCtrSync a0 l0 a1 l1) s =
      runSync (encode (.decryptCtrSync a0 l0 a1 l1)) (opOf a0 l0 a1) l1 s :=
    runSync_kind (p := opOf a0 l0 a1) .decrypt
  rw [hdec]
  exact ⟨runSync_of_free _ hfree, runSync_of_free _ hfree⟩

end Sys2Proof.Machine
end

section
/-!
PROOFS. `CtrRun` on memory (spec/42_ctr_engine.md R129 to R134). The invariant `ChunksDone p s n t` says what state `t` holds
when operation `p`, begun in `s`, has done `n` chunks: start gives it for 0, each chunk takes it from `n` to `n + 1`, and
finish turns it into `transformedByte` when all chunks are done.
-/

namespace Sys2Proof.Machine

open Sys2Proof.Claims

/-- The counter value that operation `p` loads in `s` (R129). -/
def loadedCounter (s : State) (p : Op) : BitVec 128 := be128 (Memory.readBytes s.mem p.ctr.toNat 16)

theorem processed_snd (s : State) (p : Op) :
    (processed s p).2 = loadedCounter s p + BitVec.ofNat 128 (chunks p.len.toNat) := by
  rw [processed, ctrProcess_snd, Memory.readBytes_length]
  rfl

theorem processed_fst_getD (s : State) (p : Op) {k : Nat} (hk : k < p.len.toNat) :
    (processed s p).1.getD k 0 =
      Memory.read s.mem (p.buf.toNat + k) ^^^ keystreamByte s.rk (loadedCounter s p) k := by
  rw [processed, ctrProcess_fst, getD_xorKeystream _ _ (by simpa using hk), Memory.readBytes_getD _ _ _ _ _ hk]
  rfl

/-- Operation `p`, begun in `s`, has done its first `n` chunks in `t`. With no data the counter is never loaded (R129). -/
structure ChunksDone (p : Op) (s : State) (n : Nat) (t : State) : Prop where
  regs : t = { s with mem := t.mem, ctrw := t.ctrw, idx := t.idx, ksb := t.ksb }
  idx : t.idx = n
  ctrw : 0 < p.len.toNat → t.ctrw = loadedCounter s p + BitVec.ofNat 128 n
  canonical : Memory.wf t.mem
  bytes : ∀ x, Memory.read t.mem x = partlyTransformedByte s p (16 * n) x

/-! ### The bytes -/

section
variable {p : Op} {s : State} {n x : Nat}

theorem partlyTransformedByte_of_before (hx : p.buf.toNat ≤ x) (hn : x < p.buf.toNat + min n p.len.toNat) :
    partlyTransformedByte s p n x = (processed s p).1.getD (x - p.buf.toNat) 0 := if_pos ⟨hx, hn⟩

theorem partlyTransformedByte_of_not_before (h : ¬ (p.buf.toNat ≤ x ∧ x < p.buf.toNat + min n p.len.toNat)) :
    partlyTransformedByte s p n x = Memory.read s.mem x := if_neg h

/-- An address outside chunk `n` holds the same before and after that chunk. -/
theorem partlyTransformedByte_succ_of_outside (h : x < chunkAddr p n ∨ chunkAddr p n + chunkBytes p n ≤ x) :
    partlyTransformedByte s p (16 * (n + 1)) x = partlyTransformedByte s p (16 * n) x := by
  unfold chunkAddr chunkBytes at h
  have hiff : (p.buf.toNat ≤ x ∧ x < p.buf.toNat + min (16 * (n + 1)) p.len.toNat) ↔
      (p.buf.toNat ≤ x ∧ x < p.buf.toNat + min (16 * n) p.len.toNat) := by omega
  simp only [partlyTransformedByte, hiff]

/-- Byte `j` of chunk `n` after that chunk: what the buffer held in `s` xor byte `j` of the chunk's keystream block. -/
theorem partlyTransformedByte_succ_of_inside {j : Nat} (hj : j < chunkBytes p n) :
    partlyTransformedByte s p (16 * (n + 1)) (chunkAddr p n + j) =
      Memory.read s.mem (chunkAddr p n + j) ^^^
        keystreamByte s.rk (loadedCounter s p + BitVec.ofNat 128 n) j := by
  unfold chunkBytes at hj
  have hoff : chunkAddr p n + j - p.buf.toNat = j + 16 * n := by
    unfold chunkAddr
    omega
  have haddr : p.buf.toNat + (j + 16 * n) = chunkAddr p n + j := by
    unfold chunkAddr
    omega
  rw [partlyTransformedByte_of_before (by omega) (by omega), hoff, processed_fst_getD s p (by omega), haddr,
    keystreamByte_add]

/-- From chunk `n` on, the buffer still holds what it held in `s`. -/
theorem partlyTransformedByte_of_not_reached (j : Nat) :
    partlyTransformedByte s p (16 * n) (chunkAddr p n + j) = Memory.read s.mem (chunkAddr p n + j) :=
  partlyTransformedByte_of_not_before (by unfold chunkAddr; omega)

theorem partlyTransformedByte_zero : partlyTransformedByte s p 0 x = Memory.read s.mem x :=
  partlyTransformedByte_of_not_before (by omega)

/-- With every chunk done, an address outside the counter region (or, with no data, any address) holds its final byte. -/
theorem partlyTransformedByte_all (h : ¬ (0 < p.len.toNat ∧ p.ctr.toNat ≤ x ∧ x < p.ctr.toNat + 16)) :
    partlyTransformedByte s p (16 * chunks p.len.toNat) x = transformedByte s p x := by
  have hall : min (16 * chunks p.len.toNat) p.len.toNat = p.len.toNat := by
    unfold chunks
    omega
  rw [transformedByte, if_neg h, partlyTransformedByte, hall]

theorem transformedByte_counter {k : Nat} (hlen : 0 < p.len.toNat) (hk : k < 16) :
    transformedByte s p (p.ctr.toNat + k) = (bytes128 (processed s p).2).toList.getD k 0 := by
  rw [transformedByte, if_pos ⟨hlen, by omega, by omega⟩, Nat.add_sub_cancel_left]

end

/-! ### The steps keep the invariant -/

section
variable {p : Op} {s t u : State} {n : Nat}

theorem opStart_chunksDone (hwf : Memory.wf s.mem) (h : opStart p s = .ok t) : ChunksDone p s 0 t := by
  rw [opStart_eq] at h
  split at h
  · cases h
    exact ⟨rfl, rfl, fun hlen => by omega, hwf, fun _ => partlyTransformedByte_zero.symm⟩
  · split at h
    · cases h
      exact ⟨rfl, rfl, fun _ => (BitVec.add_zero _).symm, hwf, fun _ => partlyTransformedByte_zero.symm⟩
    · cases h

/-- The chunk's bytes, read before any is written, are the buffer's bytes of `s` (R130). -/
theorem ChunksDone.succ_of_opChunk (h : ChunksDone p s n t) (ran : opChunk p t = .ok u) : ChunksDone p s (n + 1) u := by
  have hrk : t.rk = s.rk := by rw [h.regs]
  rw [opChunk_eq, h.idx, hrk] at ran
  split at ran
  case isFalse => cases ran
  cases ran
  have hwritten := xorBytes_keystream s.rk t.ctrw (bs := Memory.readBytes t.mem (chunkAddr p n) (chunkBytes p n))
    (by simp [chunkBytes])
  refine ⟨?_, rfl, fun hlen => ?_, Memory.writeBytes_wf _ _ h.canonical, fun x => ?_⟩
  · rw [h.regs]
  · rw [inc128_eq, h.ctrw hlen, BitVec.ofNat_add, BitVec.add_assoc]
    rfl
  · dsimp only
    rw [hwritten]
    by_cases hx : chunkAddr p n ≤ x ∧ x < chunkAddr p n + chunkBytes p n
    · obtain ⟨j, hj, rfl⟩ := mem_range_iff_exists_offset.1 hx
      have hlen : 0 < p.len.toNat := by
        unfold chunkBytes at hj
        omega
      rw [Memory.read_writeBytes_inside _ j _ 0 h.canonical (by simpa using hj),
        getD_xorKeystream _ _ (by simpa using hj), Memory.readBytes_getD _ _ _ _ _ hj, h.bytes,
        partlyTransformedByte_of_not_reached, h.ctrw hlen, partlyTransformedByte_succ_of_inside hj]
    · rw [Memory.read_writeBytes_outside _ _ _ _ (by simp; omega), h.bytes,
        partlyTransformedByte_succ_of_outside (by omega)]

theorem ChunksDone.add_of_opChunks {k : Nat} (h : ChunksDone p s n t) (ran : opChunks p k t = .ok u) :
    ChunksDone p s (n + k) u := by
  induction k generalizing n t with
  | zero =>
    obtain rfl := Except.ok.inj ran
    exact h
  | succ k ih =>
    rw [opChunks_succ] at ran
    cases hc : opChunk p t with
    | error v =>
      rw [hc] at ran
      cases ran
    | ok v =>
      rw [hc] at ran
      have := ih (h.succ_of_opChunk hc) ran
      rwa [Nat.add_assoc, Nat.add_comm 1] at this

/-- The counter region is written last, over whatever of the buffer it shares (R134). -/
theorem ChunksDone.bytes_of_opFinish (h : ChunksDone p s (chunks p.len.toNat) t) (ran : opFinish p t = .ok u) (x : Nat) :
    Memory.read u.mem x = transformedByte s p x := by
  rw [opFinish_eq] at ran
  split at ran
  case isTrue hzero =>
    obtain rfl := Except.ok.inj ran
    rw [h.bytes, partlyTransformedByte_all (by omega)]
  case isFalse hlen =>
    have hlen : 0 < p.len.toNat := Nat.pos_of_ne_zero hlen
    split at ran
    case isFalse => cases ran
    obtain rfl := Except.ok.inj ran
    rw [h.ctrw hlen, ← processed_snd, State.setMem_mem]
    by_cases hx : p.ctr.toNat ≤ x ∧ x < p.ctr.toNat + 16
    · obtain ⟨k, hk, rfl⟩ := mem_range_iff_exists_offset.1 hx
      rw [Memory.read_writeBytes_inside _ k _ 0 h.canonical (by simpa using hk), transformedByte_counter hlen hk]
    · rw [Memory.read_writeBytes_outside _ _ _ _ (by simp; omega), h.bytes, partlyTransformedByte_all (by omega)]

/-! ### With every byte mapped no step fails -/

theorem opStart_isOk (mapped : 0 < p.len.toNat → Platform.allMapped s.plat p.ctr.toNat 16 = true) :
    ∃ t, opStart p s = .ok t := by
  rw [opStart_eq]
  split
  · exact ⟨_, rfl⟩
  · rw [if_pos (mapped (by omega))]
    exact ⟨_, rfl⟩

theorem opFinish_isOk (mapped : 0 < p.len.toNat → Platform.allMapped s.plat p.ctr.toNat 16 = true) :
    ∃ t, opFinish p s = .ok t := by
  rw [opFinish_eq]
  split
  · exact ⟨_, rfl⟩
  · rw [if_pos (mapped (by omega))]
    exact ⟨_, rfl⟩

theorem opChunk_isOk (mapped : Platform.allMapped s.plat p.buf.toNat p.len.toNat = true) :
    ∃ t, opChunk p s = .ok t := by
  have hchunk : Platform.allMapped s.plat (chunkAddr p s.idx) (chunkBytes p s.idx) = true := by
    rw [Platform.allMapped_iff] at mapped ⊢
    intro k hk
    unfold chunkBytes at hk
    rw [chunkAddr, Nat.add_assoc]
    exact mapped _ (by omega)
  rw [opChunk_eq, if_pos hchunk]
  exact ⟨_, rfl⟩

theorem opChunks_isOk (k : Nat) (mapped : Platform.allMapped s.plat p.buf.toNat p.len.toNat = true) :
    ∃ t, opChunks p k s = .ok t := by
  induction k generalizing s with
  | zero => exact ⟨s, rfl⟩
  | succ k ih =>
    obtain ⟨t, ht⟩ := opChunk_isOk mapped
    have hplat : t.plat = s.plat := by rw [(opChunk_ok ht).1.regs]
    obtain ⟨u, hu⟩ := ih (hplat ▸ mapped)
    exact ⟨u, by rw [opChunks_succ, ht]; exact hu⟩

end

/-- Settles O45: with every byte mapped the three parts of `CtrRun` answer ok, and `ChunksDone` carries the bytes from the first
to the last. -/
theorem ctrRunIsCtrProcess : Obligations.CtrRunIsCtrProcess := by
  intro p s hwf mapped
  have hbuf : Platform.allMapped s.plat p.buf.toNat p.len.toNat = true :=
    (Platform.allMapped_iff _ _ _).2 fun k hk => mapped _ (.inl (by omega))
  have hctr : 0 < p.len.toNat → Platform.allMapped s.plat p.ctr.toNat 16 = true := fun hlen =>
    (Platform.allMapped_iff _ _ _).2 fun k hk => mapped _ (.inr (by omega))
  obtain ⟨s₁, started⟩ := opStart_isOk hctr
  have h₁ := opStart_chunksDone hwf started
  have hplat₁ : s₁.plat = s.plat := by rw [h₁.regs]
  obtain ⟨s₂, chunked⟩ := opChunks_isOk (chunks p.len.toNat) (hplat₁ ▸ hbuf)
  have h₂ := h₁.add_of_opChunks chunked
  rw [Nat.zero_add] at h₂
  have hplat₂ : s₂.plat = s.plat := by rw [h₂.regs]
  obtain ⟨t, finished⟩ := opFinish_isOk (hplat₂ ▸ hctr)
  refine ⟨t, ?_, ?_, h₂.bytes_of_opFinish finished⟩
  · simp only [ctrRun, started, chunked, finished, bind, Except.bind]
  · rw [(opFinish_ok finished).2, h₂.regs]

end Sys2Proof.Machine
end

section
/-!
PROOFS. How `Q`, `NLOG` and the responses change together (spec/43_dispatcher.md R147, R148, R152, R153): a step leaves all three
alone but for a response other than `SUBMITTED`, or accepts one operation, or retires one, or is the reset event.
-/

namespace Sys2Proof.Machine

/-- From `s` to `t` no operation is accepted and none retired. -/
structure QueueKept (s t : State) : Prop where
  q : t.q = s.q
  nlog : t.nlog = s.nlog
  accepted : acceptedTokens t.rsps = acceptedTokens s.rsps

/-- From `s` to `t` operation `p` is accepted (R144). -/
structure Accepted (p : Pending) (s t : State) : Prop where
  q : t.q = s.q ++ [p]
  nlog : t.nlog = s.nlog
  rsps : t.rsps = s.rsps ++ [{ status := .submitted, token := p.tok }]

/-- From `s` to `t` operation `p` is finished (R151). -/
structure Retired (p : Pending) (s t : State) : Prop where
  q : s.q = p :: t.q
  nlog : t.nlog = s.nlog ++ [p.ntf]
  rsps : t.rsps = s.rsps
  before : s.eng = .run
  after : t.eng = .idle

/-! ### The accepted tokens -/

@[simp] theorem acceptedTokens_append (rs rs' : List Rsp) :
    acceptedTokens (rs ++ rs') = acceptedTokens rs ++ acceptedTokens rs' := by
  simp [acceptedTokens]

theorem acceptedTokens_submitted (tk : Word) : acceptedTokens [{ status := .submitted, token := tk }] = [tk] := rfl

theorem acceptedTokens_of_ne {st : Status} (h : st ≠ .submitted) (tk : Word) :
    acceptedTokens [{ status := st, token := tk }] = [] := by
  simp [acceptedTokens, h]

theorem QueueKept.traceInv {s t : State} (h : QueueKept s t) (hs : s.TraceInv) : t.TraceInv := by
  rw [State.TraceInv, h.q, h.nlog, h.accepted]
  exact hs

/-- The accepted token is the last one on both sides. -/
theorem Accepted.traceInv {p : Pending} {s t : State} (h : Accepted p s t) (hs : s.TraceInv) : t.TraceInv := by
  rw [State.TraceInv, h.q, h.nlog, h.rsps, acceptedTokens_append, acceptedTokens_submitted, hs]
  simp

/-- The head's token moves from the queued to the notified. -/
theorem Retired.traceInv {p : Pending} {s t : State} (h : Retired p s t) (hs : s.TraceInv) : t.TraceInv := by
  rw [State.TraceInv, h.q] at hs
  rw [State.TraceInv, h.nlog, h.rsps, hs]
  simp [Pending.ntf]

/-! ### What each agent's move does to the queue -/

/-- An operation changes neither the queue nor a trace: these are not among the fields of its frame. -/
theorem OpFrame.queueKept {p : Op} {s t : State} (h : OpFrame p s t) : QueueKept s t := by
  rw [h.regs]
  exact ⟨rfl, rfl, rfl⟩

/-- A response other than `SUBMITTED` accepts nothing. -/
theorem QueueKept.respond {s t : State} (h : QueueKept s t) {st : Status} (hst : st ≠ .submitted) (tk : Word) :
    QueueKept s (t.respond st tk) :=
  ⟨h.q, h.nlog, by simp [acceptedTokens_of_ne hst, h.accepted]⟩

theorem CommandStep.queue_cases {w : Desc} {s t : State} (h : CommandStep w s t) :
    QueueKept s t ∨ ∃ p, Accepted p s t := by
  cases h with
  | rejected st code =>
    have hst : st ≠ .submitted := by
      rintro rfl
      exact absurd code (by decide)
    exact .inl (QueueKept.respond ⟨rfl, rfl, rfl⟩ hst 0)
  | held | keyFault => exact .inl ⟨rfl, rfl, rfl⟩
  | installed => exact .inl (QueueKept.respond (s := s) (t := s.installKey _) (st := .ok) ⟨rfl, rfl, rfl⟩ (by decide) 0)
  | transformed _ _ _ u ran =>
    obtain ⟨hq, hnlog, haccepted⟩ := (ctrRun_ok ran).1.queueKept
    exact .inl (QueueKept.respond (s := s) (t := u.releaseScratch) (st := .ok) ⟨hq, hnlog, haccepted⟩ (by decide) 0)
  | transformFault _ _ _ u ran =>
    obtain ⟨hq, hnlog, haccepted⟩ := (ctrRun_error ran).1.queueKept
    exact .inl ⟨hq, hnlog, haccepted⟩
  | submitted p => exact .inr ⟨p, rfl, rfl, rfl⟩

/-- Of the engine's steps only finish changes the queue. -/
theorem EngineMove.queue_cases {s t : State} (h : EngineMove s t) : QueueKept s t ∨ ∃ p, Retired p s t := by
  cases h with
  | none | fault => exact .inl ⟨rfl, rfl, rfl⟩
  | start _ _ _ _ _ u ran =>
    obtain ⟨hq, hnlog, haccepted⟩ := (opStart_ok ran).1.queueKept
    exact .inl ⟨hq, hnlog, haccepted⟩
  | chunk _ _ _ _ _ _ _ ran => exact .inl (opChunk_ok ran).1.queueKept
  | finish p rest _ head phase _ u ran =>
    rw [(opFinish_ok ran).2]
    exact .inr ⟨p, by simp [head], rfl, rfl, phase, rfl⟩

/-- What a move does to the queue, by the agent that moved. -/
theorem Move.queue_cases {r t : State} {a : Turn} (h : Move r a t) :
    (a = .reset ∧ t = r.applyReset) ∨ QueueKept r t ∨ (a = .host ∧ ∃ p, Accepted p r t) ∨
      (a = .engine ∧ ∃ p, Retired p r t) := by
  cases h with
  | reset => exact .inl ⟨rfl, rfl⟩
  | engine _ move => exact .inr (move.queue_cases.imp_right fun retired => .inr ⟨rfl, retired⟩)
  | wait | load | store => exact .inr (.inl ⟨rfl, rfl, rfl⟩)
  | resumed _ _ _ _ ran => exact .inr (ran.queue_cases.imp_right fun accepted => .inl ⟨rfl, accepted⟩)
  | presented _ rest _ _ _ _ ran =>
    obtain ⟨hq, hnlog, haccepted⟩ | ⟨p, hq, hnlog, hrsps⟩ := ran.queue_cases
    · exact .inr (.inl ⟨hq, hnlog, haccepted⟩)
    · exact .inr (.inr (.inl ⟨rfl, p, hq, hnlog, hrsps⟩))

/-- Settles O60: a reset empties both sides, and each other change of the queue keeps them equal. -/
theorem stepKeepsExactlyOnce : Obligations.StepKeepsExactlyOnce := by
  intro s t hs h
  have hr : (s.setTurns s.turns.tail).TraceInv := hs
  obtain ⟨-, rfl⟩ | kept | ⟨-, p, accepted⟩ | ⟨-, p, retired⟩ := (step_move h).queue_cases
  · rfl
  · exact kept.traceInv hr
  · exact accepted.traceInv hr
  · exact retired.traceInv hr

/-- Settles O48: the turn is no reset, so the queue is kept, or the host's move has an operation accepted, or the engine's
retires one. -/
theorem queueChanges : Obligations.QueueChanges := by
  intro s t hturn h
  obtain ⟨hreset, -⟩ | kept | ⟨hhost, p, accepted⟩ | ⟨hengine, p, retired⟩ := (step_move h).queue_cases
  · exact absurd hreset hturn
  · exact .inl ⟨kept.q, kept.nlog⟩
  · exact .inr (.inl ⟨p, accepted.q, accepted.nlog, hhost, accepted.rsps⟩)
  · exact .inr (.inr ⟨p, retired.q, retired.nlog, hengine, retired.before, retired.after, retired.rsps⟩)

end Sys2Proof.Machine
end

section
/-!
PROOFS. The transform commands (spec/43_dispatcher.md R141 to R145, R155): a command that passes its checks does what `runSync` and
`runAsync` say of its operands, whichever its kind; one that fails a check is answered with that check's status.
-/

namespace Sys2Proof.Machine

open Sys2Proof.Claims

/-! ### The commands as `runSync` and `runAsync` -/

theorem exec_sync {a0 l0 a1 l1 : Word} {i : Instr} (hi : i ∈ syncCommands a0 l0 a1 l1) (s : State) :
    exec i s = runSync (encode i) (opOf a0 l0 a1) l1 s := by
  obtain rfl | rfl : i = .encryptCtrSync a0 l0 a1 l1 ∨ i = .decryptCtrSync a0 l0 a1 l1 := by
    simpa [syncCommands] using hi
  · rfl
  · exact runSync_kind (p := opOf a0 l0 a1) .decrypt

/-- The record of an asynchronous command of either kind (R146). -/
def recordOf (k : Kind) (a0 l0 a1 cb tok : Word) : Pending :=
  { kind := k, buf := a0, len := l0, ctr := a1, cb := cb, tok := tok }

theorem exec_async {a0 l0 a1 l1 cb tok : Word} {i : Instr} (hi : i ∈ asyncCommands a0 l0 a1 l1 cb tok) (s : State) :
    ∃ k, exec i s = runAsync (encode i) (recordOf k a0 l0 a1 cb tok) l1 s := by
  obtain rfl | rfl : i = .encryptCtrAsync a0 l0 a1 l1 cb tok ∨ i = .decryptCtrAsync a0 l0 a1 l1 cb tok := by
    simpa [asyncCommands] using hi
  · exact ⟨.encrypt, rfl⟩
  · exact ⟨.decrypt, rfl⟩

section
variable {w : Desc} {p : Pending} {l1 : Word} {s : State}

theorem runAsync_of_invalid {st : Status} (h : validateAsync p.toOp l1 s = some st) :
    runAsync w p l1 s = rejected s st := by
  have h : validateAsync p.toOp l1 (s.present w) = some st := h
  simp only [runAsync, h]
  rfl

theorem runAsync_of_valid (h : validateAsync p.toOp l1 s = none) :
    runAsync w p l1 s = .next ((s.enqueue p).respond .submitted p.tok) := by
  have h : validateAsync p.toOp l1 (s.present w) = none := h
  simp only [runAsync, h]
  rfl

theorem validateAsync_of_invalid {p : Op} {st : Status} (h : validate p l1 s = some st) :
    validateAsync p l1 s = some st := by
  simp only [validateAsync, h]

theorem validateAsync_of_full {p : Op} (h : validate p l1 s = none) (full : Platform.full s.plat s.q.length = true) :
    validateAsync p l1 s = some .submissionRejected := by
  simp only [validateAsync, h, full, if_true]

theorem full_iff {p : Platform} {n : Nat} : Platform.full p n = true ↔ ∃ d, p.qdepth = some d ∧ d ≤ n := by
  rw [← Bool.not_eq_false, full_false_iff]
  simp

end

/-! ### Validation -/

section
variable {p : Op} {l1 : Word} {s : State}

theorem validate_of_no_key (hkey : s.keyValid = false) : validate p l1 s = some .keyNotSet := if_pos hkey

theorem validate_of_counter_length (hkey : s.keyValid = true) (hl1 : l1 ≠ 16) :
    validate p l1 s = some .invalidCounterLength := by
  rw [validate, if_neg (by simp [hkey]), if_pos hl1]

theorem validate_of_outside (hkey : s.keyValid = true) (hl1 : l1 = 16)
    (outside : memSize < p.buf.toNat + p.len.toNat ∨ memSize < p.ctr.toNat + 16) :
    validate p l1 s = some .illegalCommand := by
  have hregions : Op.regionsOk p = false := by
    rw [← Bool.not_eq_true, regionsOk_iff]
    omega
  simp [validate, hkey, hl1, hregions]

end

/-- Checks 2 to 4 decide alike for all four transforms. -/
theorem exec_of_invalid {a0 l0 a1 l1 cb tok : Word} {s : State} {st : Status} {i : Instr}
    (hi : i ∈ syncCommands a0 l0 a1 l1 ++ asyncCommands a0 l0 a1 l1 cb tok)
    (h : validate (opOf a0 l0 a1) l1 s = some st) : exec i s = rejected s st := by
  rcases List.mem_append.1 hi with hi | hi
  · rw [exec_sync hi]
    exact runSync_of_invalid h
  · obtain ⟨k, hk⟩ := exec_async hi s
    rw [hk]
    exact runAsync_of_invalid (validateAsync_of_invalid h)

/-- Settles O28, check by check. -/
theorem transformValidation : Obligations.TransformValidation := by
  intro a0 l0 a1 l1 cb tok s
  refine ⟨fun i hi => ⟨fun hkey => ?_, fun hkey hl1 => ?_, fun hkey hl1 outside => ?_⟩,
    fun i hi hkey hl1 hbuf hctr hfull => ?_, fun w e h => runCommand_of_decode_error h s⟩
  · exact exec_of_invalid hi (validate_of_no_key hkey)
  · exact exec_of_invalid hi (validate_of_counter_length hkey hl1)
  · exact exec_of_invalid hi (validate_of_outside hkey hl1 outside)
  · obtain ⟨k, hk⟩ := exec_async hi s
    rw [hk]
    exact runAsync_of_invalid
      (validateAsync_of_full (validate_none_iff.2 ⟨hkey, hl1, regionsOk_iff.2 ⟨hbuf, hctr⟩⟩) (full_iff.2 hfull))

/-- Settles O34: all five checks pass. -/
theorem asyncTransformSubmits : Obligations.AsyncTransformSubmits := by
  intro a0 l0 a1 cb tok s hkey hbuf hctr room
  have valid (k : Kind) : validateAsync (recordOf k a0 l0 a1 cb tok).toOp 16 s = none :=
    validateAsync_none_iff.2 ⟨hkey, rfl, regionsOk_iff.2 ⟨hbuf, hctr⟩, full_false_iff.2 room⟩
  exact ⟨runAsync_of_valid (valid .encrypt), runAsync_of_valid (valid .decrypt)⟩

/-- Settles O35: a submission is rejected or accepted. -/
theorem asyncTransformFrame : Obligations.AsyncTransformFrame := by
  intro a0 l0 a1 l1 cb tok s i hi
  obtain ⟨k, hk⟩ := exec_async hi s
  rw [hk]
  cases h : validateAsync (recordOf k a0 l0 a1 cb tok).toOp l1 s with
  | some st => exact ⟨_, runAsync_of_invalid h, rfl, .inl rfl, fun _ => rfl⟩
  | none => exact ⟨_, runAsync_of_valid h, rfl, .inr ⟨_, rfl⟩, fun _ => rfl⟩

/-! ### The synchronous commands -/

theorem validate_opOf {a0 l0 a1 : Word} {s : State} (hkey : s.keyValid = true) (hbuf : a0.toNat + l0.toNat ≤ memSize)
    (hctr : a1.toNat + 16 ≤ memSize) : validate (opOf a0 l0 a1) 16 s = none :=
  validate_none_iff.2 ⟨hkey, rfl, regionsOk_iff.2 ⟨hbuf, hctr⟩⟩

/-- Settles O30: the checks pass, and `Q` is not empty. -/
theorem syncTransformHeld : Obligations.SyncTransformHeld := by
  intro a0 l0 a1 s i hi hkey hbuf hctr busy
  rw [exec_sync hi]
  exact runSync_of_busy (validate_opOf hkey hbuf hctr) busy

/-- An operation without data does nothing but set `IDX` (R126, R129, R131). -/
theorem ctrRun_of_empty {p : Op} (hlen : p.len.toNat = 0) (s : State) : ctrRun p s = .ok (s.setIdx 0) := by
  have hchunks : chunks p.len.toNat = 0 := by simp [chunks, hlen]
  simp only [ctrRun, hchunks, opStart_eq, opFinish_eq, if_pos hlen, bind, Except.bind, opChunks_zero]

/-- Settles O29: `CtrRun` answers as ctrRunIsCtrProcess says, and the response and the release of the scratch registers
leave memory alone. -/
theorem syncTransformCompletes : Obligations.SyncTransformCompletes := by
  intro a0 l0 a1 s i hi canonical hkey quiet hbuf hctr mapped
  rw [exec_sync hi, runSync_of_valid (validate_opOf hkey hbuf hctr) quiet]
  obtain ⟨u, ran, frame, bytes⟩ := ctrRunIsCtrProcess (opOf a0 l0 a1) (s.present (encode i)) canonical mapped
  refine ⟨u.releaseScratch.respond .ok 0, by rw [ran, endSync_ok], ?_, u.releaseScratch_spec.2, fun hempty => ?_, bytes⟩
  · rw [frame]
    rfl
  · have hlen : (opOf a0 l0 a1).len.toNat = 0 := by simp [opOf, hempty]
    obtain rfl := Except.ok.inj ((ctrRun_of_empty hlen _).symm.trans ran)
    rfl

/-- An address that the operation does not touch is outside its frame (R49). -/
theorem OpFrame.untouched {p : Op} {s t : State} (h : OpFrame p s t) {x : Nat} (hx : ¬ touches p x) :
    Memory.read t.mem x = Memory.read s.mem x := by
  unfold touches at hx
  exact h.outside x (by omega) (by omega)

/-- Settles O32: a rejected or held command leaves memory alone, and a `CtrRun` keeps within its frame however it ends. -/
theorem syncTransformFrame : Obligations.SyncTransformFrame := by
  intro a0 l0 a1 l1 s t i hi h
  rw [exec_sync hi] at h
  cases hv : validate (opOf a0 l0 a1) l1 s with
  | some st =>
    rw [runSync_of_invalid hv] at h
    obtain rfl := Host.Outcome.next.inj h
    exact ⟨rfl, fun _ _ => rfl⟩
  | none =>
    by_cases hq : s.q = []
    · rw [runSync_of_valid hv hq] at h
      cases ran : ctrRun (opOf a0 l0 a1) (s.present (encode i)) with
      | ok u =>
        rw [ran] at h
        obtain rfl := Host.Outcome.next.inj h
        obtain ⟨frame, -⟩ := ctrRun_ok ran
        exact ⟨by rw [frame.regs]; rfl, fun x hx => frame.untouched hx⟩
      | error u =>
        rw [ran] at h
        obtain rfl := Host.Outcome.next.inj h
        obtain ⟨frame, -⟩ := ctrRun_error ran
        exact ⟨by rw [frame.regs]; rfl, fun x hx => frame.untouched hx⟩
    · rw [runSync_of_busy hv hq] at h
      obtain rfl := Host.Outcome.next.inj h
      exact ⟨rfl, fun _ _ => rfl⟩

end Sys2Proof.Machine
end

section
/-!
PROOFS. A descriptor on the port (spec/43_dispatcher.md R140, R155): the host's step runs the command that it decodes to, and running
it gives one response or keeps it on the port.
-/

namespace Sys2Proof.Machine

theorem runCommand_of_decode_ok {w : Desc} {i : Instr} (h : decode w = .ok i) (s : State) : runCommand w s = exec i s := by
  simp only [runCommand, h]

theorem hostStep_held {s : State} {w : Desc} (alive : s.fatal = false) (port : s.port = .held w) :
    hostStep s = runCommand w s := by
  simp [hostStep, alive, port]

theorem step_of_idle_engine {s : State} (turns : s.turns = []) (quiet : s.q = []) : step s = hostStep s := by
  have hoff : ¬ engineEnabled s = true := by simp [engineEnabled_iff, quiet]
  rw [step_of_turns_nil turns, if_neg hoff]
  rfl

/-- Settles O6: whichever way the host's turn comes about, its step runs the descriptor. -/
theorem stepRunsPresentedCommand : Obligations.StepRunsPresentedCommand := by
  intro s w i alive dec
  refine ⟨fun rest ts port turns prog => ?_, fun ts port turns => ?_, fun rest port turns quiet prog => ?_⟩
  · rw [step_of_turns_cons turns, agentStep, hostStep_command (s := s.setTurns ts) alive port prog,
      runCommand_of_decode_ok dec]
    rfl
  · rw [step_of_turns_cons turns, agentStep, hostStep_held (s := s.setTurns ts) alive port, runCommand_of_decode_ok dec]
    rfl
  · rw [step_of_idle_engine turns quiet, hostStep_command alive port prog, runCommand_of_decode_ok dec]
    rfl

theorem OpFrame.rsps_eq {p : Op} {s t : State} (h : OpFrame p s t) : t.rsps = s.rsps := by
  rw [h.regs]

theorem CommandStep.one_response {w : Desc} {s t : State} (h : CommandStep w s t) :
    (t.port = .held w ∧ t.rsps = s.rsps) ∨ (t.port = .free ∧ ∃ r, t.rsps = s.rsps ++ [r]) := by
  cases h with
  | rejected | installed | submitted => exact .inr ⟨rfl, _, rfl⟩
  | held | keyFault => exact .inl ⟨rfl, rfl⟩
  | transformed _ _ _ u ran =>
    have hrsps : u.rsps = s.rsps := (ctrRun_ok ran).1.rsps_eq
    exact .inr ⟨rfl, _, by rw [State.respond_rsps, State.releaseScratch_rsps, hrsps]⟩
  | transformFault _ _ _ u ran =>
    have frame := (ctrRun_error ran).1
    exact .inl ⟨frame.port_keyValid.1, frame.rsps_eq⟩

/-- Settles O37, by cases on what the command leads to. -/
theorem oneResponsePerCommand : Obligations.OneResponsePerCommand := by
  intro w s
  obtain ⟨t, ran, h⟩ := runCommand_step w s
  exact ⟨t, ran, h.one_response⟩

end Sys2Proof.Machine
end

section
/-!
PROOFS. The engine's three steps (spec/43_dispatcher.md R149 to R151, R154): which one the turn is, from the phase and the chunk
count, and what each does to the head operation. The theorems that settle the three steps' statements have the names of the
steps themselves, so they stand in a namespace of their own.
-/

namespace Sys2Proof.Machine

/-! ### Which step the engine's turn is -/

section
variable {s : State} {p : Pending} {rest : List Pending} (alive : s.fatal = false) (head : s.q = p :: rest)
include alive head

theorem engineStep_of_idle (phase : s.eng = .idle) :
    engineStep s = settle ((opStart p.toOp s).map State.setRun) := by
  simp only [engineStep, alive, head, phase]
  rfl

theorem engineStep_of_more (phase : s.eng = .run) (more : s.idx < chunks p.len.toNat) :
    engineStep s = settle (opChunk p.toOp s) := by
  simp only [engineStep, alive, head, phase, if_pos more]
  rfl

theorem engineStep_of_done (phase : s.eng = .run) (done : s.idx = chunks p.len.toNat) :
    engineStep s = settle ((opFinish p.toOp s).map fun u => (u.notify p.ntf).retire.releaseScratch) := by
  simp only [engineStep, alive, head, phase, if_neg (Nat.not_lt.2 done.ge), if_pos done]
  rfl

end

/-! ### The head operation's bytes -/

theorem toNat_eq_zero_iff {w : Word} : w.toNat = 0 ↔ w = 0 :=
  BitVec.toNat_inj (y := 0)

/-- Each byte of the chunk is xored with its byte of the keystream block, every other byte is left (R130). -/
theorem read_opChunk {p : Op} {s t : State} (canonical : Memory.wf s.mem) (ran : opChunk p s = .ok t) :
    (∀ k, k < chunkBytes p s.idx →
      Memory.read t.mem (chunkAddr p s.idx + k) =
        Memory.read s.mem (chunkAddr p s.idx + k) ^^^ (keystream s.rk s.ctrw).toList.getD k 0) ∧
    ∀ x, (x < chunkAddr p s.idx ∨ chunkAddr p s.idx + chunkBytes p s.idx ≤ x) →
      Memory.read t.mem x = Memory.read s.mem x := by
  have hbytes : chunkBytes p s.idx ≤ 16 := Nat.min_le_left _ _
  rw [opChunk_eq] at ran
  split at ran
  case isFalse => cases ran
  obtain rfl := Except.ok.inj ran
  dsimp only
  rw [xorBytes_keystream _ _ (by simpa using hbytes)]
  obtain ⟨inside, outside⟩ := Memory.read_writeBytes (chunkAddr p s.idx)
    (xorKeystream s.rk s.ctrw (Memory.readBytes s.mem (chunkAddr p s.idx) (chunkBytes p s.idx))) canonical
  rw [length_xorKeystream, Memory.readBytes_length] at inside outside
  refine ⟨fun k hk => ?_, outside⟩
  rw [inside k hk, getD_xorKeystream _ _ (by simpa using hk), Memory.readBytes_getD _ _ _ _ _ hk,
    keystreamByte_of_lt _ _ (hk.trans_le hbytes)]

/-- With data, `OpFinish` leaves the counter value in the counter region (R131). -/
theorem read_opFinish {p : Op} {s t : State} (canonical : Memory.wf s.mem) (ran : opFinish p s = .ok t) :
    (p.len.toNat = 0 → t.mem = s.mem) ∧
    (p.len.toNat ≠ 0 → ∀ k, k < 16 → Memory.read t.mem (p.ctr.toNat + k) = (bytes128 s.ctrw).toList.getD k 0) ∧
    ∀ x, (x < p.ctr.toNat ∨ p.ctr.toNat + 16 ≤ x) → Memory.read t.mem x = Memory.read s.mem x := by
  rw [opFinish_eq] at ran
  split at ran
  case isTrue hlen =>
    obtain rfl := Except.ok.inj ran
    exact ⟨fun _ => rfl, fun hdata => absurd hlen hdata, fun _ _ => rfl⟩
  case isFalse hlen =>
    split at ran
    case isFalse => cases ran
    obtain rfl := Except.ok.inj ran
    obtain ⟨inside, outside⟩ := Memory.read_writeBytes p.ctr.toNat (bytes128 s.ctrw).toList canonical
    rw [Vector.length_toList] at inside outside
    rw [State.setMem_mem]
    exact ⟨fun hempty => absurd hempty hlen, fun _ => inside, outside⟩

end Sys2Proof.Machine

namespace Sys2Proof.Steps

open Sys2Proof.Machine

/-- Settles O38: `OpStart` spelled out, then `ENG` at `RUN` where it raised no fault. -/
theorem engineStart : Obligations.EngineStart := by
  intro s p rest alive phase head
  rw [engineStep_of_idle alive head phase, opStart_eq]
  refine ⟨fun hlen => ?_, fun hlen mapped => ?_, fun hlen hole => ?_⟩
  · rw [if_pos (toNat_eq_zero_iff.2 hlen)]
    rfl
  · rw [if_neg (mt toNat_eq_zero_iff.1 hlen), if_pos ((Platform.allMapped_iff _ _ _).2 mapped)]
    rfl
  · rw [if_neg (mt toNat_eq_zero_iff.1 hlen), if_neg (by simp [Platform.allMapped_eq_false_iff.2 hole])]
    rfl

/-- Settles O39: `OpChunk` spelled out, and its bytes by `read_opChunk`. -/
theorem engineChunk : Obligations.EngineChunk := by
  intro s p rest alive phase head more canonical
  rw [engineStep_of_more alive head phase more]
  refine ⟨fun mapped => ?_, fun hole => ?_⟩
  · have hall : Platform.allMapped s.plat (chunkAddr p.toOp s.idx) (chunkBytes p.toOp s.idx) = true :=
      (Platform.allMapped_iff _ _ _).2 mapped
    have ran := opChunk_eq p.toOp s
    rw [if_pos hall] at ran
    exact ⟨_, by rw [ran, settle_ok], rfl, read_opChunk canonical ran⟩
  · have hall : Platform.allMapped s.plat (chunkAddr p.toOp s.idx) (chunkBytes p.toOp s.idx) = false :=
      Platform.allMapped_eq_false_iff.2 hole
    rw [opChunk_eq, if_neg (by simp [hall])]
    rfl

/-- Settles O40: `OpFinish` answers ok and its bytes are those of `read_opFinish`, or it raises the fault. -/
theorem engineFinish : Obligations.EngineFinish := by
  intro s p rest alive phase head done canonical
  rw [engineStep_of_done alive head phase done]
  refine ⟨fun mapped => ?_, fun ⟨hlen, hole⟩ => ?_⟩
  · obtain ⟨u, ran⟩ := opFinish_isOk (p := p.toOp) (s := s) fun hdata =>
      (Platform.allMapped_iff _ _ _).2 (mapped.resolve_left fun hempty => hdata.ne' (toNat_eq_zero_iff.2 hempty))
    obtain ⟨empty, counter, outside⟩ := read_opFinish canonical ran
    refine ⟨(u.notify p.ntf).retire.releaseScratch, by rw [ran]; rfl, ?_, State.releaseScratch_spec _ |>.2,
      fun hempty => empty (toNat_eq_zero_iff.2 hempty), fun hdata => counter (mt toNat_eq_zero_iff.1 hdata), outside⟩
    rw [(opFinish_ok ran).2]
    simp [State.releaseScratch, State.retire, State.notify, Pending.ntf, head]
  · rw [opFinish_eq, if_neg (mt toNat_eq_zero_iff.1 hlen), if_neg (by simp [Platform.allMapped_eq_false_iff.2 hole])]
    rfl

end Sys2Proof.Steps
end

section
/-!
PROOFS. Every engine step (spec/43_dispatcher.md R149 to R154, spec/20_memory.md R49): its frame, and that the head operation makes
progress or the fatal fault is raised.
-/

namespace Sys2Proof.Machine

open Sys2Proof.Claims

/-! ### The frame -/

/-- The fields that an engine step may write. -/
theorem EngineMove.regs {s t : State} (h : EngineMove s t) :
    t = { s with
      eng := t.eng, fatal := t.fatal, ctrw := t.ctrw, idx := t.idx, ksb := t.ksb, draws := t.draws, q := t.q,
      nlog := t.nlog, mem := t.mem } := by
  cases h with
  | none | fault => rfl
  | start _ _ _ _ _ u ran =>
    rw [(opStart_ok ran).1.regs]
    rfl
  | chunk _ _ _ _ _ _ _ ran => rw [(opChunk_ok ran).1.regs]
  | finish _ _ _ _ _ _ u ran =>
    rw [(opFinish_ok ran).2]
    rfl

/-- Memory changes within the head operation's frame. -/
theorem EngineMove.untouched {s t : State} (h : EngineMove s t) {p : Pending} (hp : s.q.head? = some p) {x : Nat}
    (hx : ¬ touches p.toOp x) : Memory.read t.mem x = Memory.read s.mem x := by
  have same {r : Pending} {rest : List Pending} (head : s.q = r :: rest) : r = p := by simpa [head] using hp
  cases h with
  | none | fault => rfl
  | start r _ _ head _ u ran =>
    obtain rfl := same head
    exact (opStart_ok ran).1.untouched hx
  | chunk r _ _ head _ _ _ ran =>
    obtain rfl := same head
    exact (opChunk_ok ran).1.untouched hx
  | finish r _ _ head _ _ u ran =>
    obtain rfl := same head
    exact (opFinish_ok ran).1.untouched hx

theorem engineStep_of_disabled {s : State} (h : s.fatal = true ∨ s.q = []) : engineStep s = .next s := by
  rcases h with h | h <;> simp [engineStep, h]

/-- Settles O41: the fields and the bytes of an engine move, and that a disabled engine has none. -/
theorem engineFrame : Obligations.EngineFrame := by
  intro s t h
  have move : EngineMove s t := by
    obtain ⟨u, hu, move⟩ := engineStep_move s
    rwa [Host.Outcome.next.inj (h.symm.trans hu)]
  exact ⟨move.regs, fun p hp x hx => move.untouched hp hx, fun hoff =>
    Host.Outcome.next.inj (h.symm.trans (engineStep_of_disabled hoff))⟩

/-! ### Progress -/

/-- Settles O42, by the phase and, in phase `RUN`, by whether a chunk is left. -/
theorem engineProgress : Obligations.EngineProgress := by
  intro s p rest inv alive head
  cases phase : s.eng with
  | idle =>
    rw [engineStep_of_idle alive head phase]
    cases ran : opStart p.toOp s with
    | error u => exact ⟨u, rfl, .inl (by rw [opStart_error ran]; rfl)⟩
    | ok u =>
      obtain ⟨frame, -, hidx⟩ := opStart_ok ran
      exact ⟨u.setRun, rfl, .inr (.inl ⟨rfl, rfl, hidx, frame.queueKept.q⟩)⟩
  | run =>
    rcases (inv.progress phase p (by simp [head])).lt_or_eq with more | done
    · rw [engineStep_of_more alive head phase more]
      cases ran : opChunk p.toOp s with
      | error u => exact ⟨u, rfl, .inl (by rw [opChunk_error ran])⟩
      | ok u =>
        obtain ⟨frame, -, hidx⟩ := opChunk_ok ran
        have heng : u.eng = s.eng := by rw [frame.regs]
        exact ⟨u, rfl, .inr (.inr (.inl ⟨rfl, heng.trans phase, hidx, frame.queueKept.q⟩))⟩
    · rw [engineStep_of_done alive head phase done]
      cases ran : opFinish p.toOp s with
      | error u => exact ⟨u, rfl, .inl (by rw [opFinish_error ran]; rfl)⟩
      | ok u =>
        obtain ⟨hq, hnlog, -⟩ := (opFinish_ok ran).1.queueKept
        exact ⟨_, rfl, .inr (.inr (.inr ⟨rfl, rfl, by simp [hq, head], by simp [hnlog]⟩))⟩

end Sys2Proof.Machine
end

section
/-!
PROOFS. The engine alone (spec/43_dispatcher.md R148, R152, R154, R158, spec/42_ctr_engine.md R132): an operation at the head of `Q`
takes the engine through the three parts of its `CtrRun`, one start step, one step per chunk and one finish step. What the engine
adds to the parts, its phase and the turns left, they do not read.
-/

namespace Sys2Proof.Machine

/-! ### Runs -/

theorem run_of_step {s t : State} (h : step s = .next t) (k : Nat) :
    Sys2Proof.core.run (k + 1) s = Sys2Proof.core.run k t := by
  have h : Sys2Proof.core.step s = .next t := h
  simp only [Host.Core.run, h]

theorem run_add {a b : Nat} {s t : State} (h : Sys2Proof.core.run a s = .next t) :
    Sys2Proof.core.run (a + b) s = Sys2Proof.core.run b t := by
  induction a generalizing s with
  | zero =>
    obtain rfl := Host.Outcome.next.inj h
    rw [Nat.zero_add]
  | succ a ih =>
    rw [Nat.add_right_comm]
    cases hs : step s with
    | next u =>
      rw [run_of_step hs] at h ⊢
      exact ih h
    | fault f | refused f =>
      have hs : Sys2Proof.core.step s = _ := hs
      simp only [Host.Core.run, hs, reduceCtorEq] at h

/-! ### The parts of an operation do not read the phase and the turns -/

/-- The state with the engine in the given phase and the given turns left. -/
def State.withPhase (e : Phase) (ts : List Turn) (s : State) : State := { s with eng := e, turns := ts }

/-- The second state is the first in the given phase with the given turns left. -/
abbrev InPhase (e : Phase) (ts : List Turn) (s t : State) : Prop := t = s.withPhase e ts

section
variable (p : Op) (s : State) (e : Phase) (ts : List Turn)

theorem opStart_withPhase : SameFate (InPhase e ts) (opStart p s) (opStart p (s.withPhase e ts)) := by
  rw [opStart_eq, opStart_eq]
  exact rel_ite (fun _ => .ok rfl) fun _ => rel_ite (fun _ => .ok rfl) fun _ => .error rfl

theorem opChunk_withPhase : SameFate (InPhase e ts) (opChunk p s) (opChunk p (s.withPhase e ts)) := by
  rw [opChunk_eq, opChunk_eq]
  exact rel_ite (fun _ => .ok rfl) fun _ => .error rfl

theorem opFinish_withPhase : SameFate (InPhase e ts) (opFinish p s) (opFinish p (s.withPhase e ts)) := by
  have hctrw : (s.withPhase e ts).ctrw = s.ctrw := rfl
  rw [opFinish_eq, opFinish_eq, hctrw]
  generalize (bytes128 s.ctrw).toList = bs
  exact rel_ite (fun _ => .ok rfl) fun _ => rel_ite (fun _ => .ok rfl) fun _ => .error rfl

end

theorem SameFate.ok_withPhase {e : Phase} {ts : List Turn} {r r' : Except State State} {t : State}
    (h : SameFate (InPhase e ts) r r') (ran : r = .ok t) : r' = .ok (t.withPhase e ts) := by
  subst ran
  cases h with
  | ok h => rw [h]

/-- A completed `CtrRun` has completed its three parts (R132). -/
theorem ctrRun_parts {p : Op} {s t : State} (h : ctrRun p s = .ok t) :
    ∃ u v, opStart p s = .ok u ∧ opChunks p (chunks p.len.toNat) u = .ok v ∧ opFinish p v = .ok t := by
  unfold ctrRun at h
  cases hu : opStart p s with
  | error u => simp only [hu, bind, Except.bind, reduceCtorEq] at h
  | ok u =>
    cases hv : opChunks p (chunks p.len.toNat) u with
    | error v => simp only [hu, hv, bind, Except.bind, reduceCtorEq] at h
    | ok v => exact ⟨u, v, rfl, hv, by simpa only [hu, hv, bind, Except.bind] using h⟩

/-! ### The engine's steps through one operation -/

section
variable {s t : State} {p : Pending} {rest : List Pending} {ts : List Turn} (alive : s.fatal = false)
  (head : s.q = p :: rest)
include alive head

theorem step_start (phase : s.eng = .idle) (turns : s.turns = .engine :: ts) (ran : opStart p.toOp s = .ok t) :
    step s = .next (t.withPhase .run ts) := by
  rw [step_of_turns_cons turns]
  have hs : s.setTurns ts = s.withPhase .idle ts := by rw [State.withPhase, ← phase, State.setTurns]
  rw [agentStep, hs, engineStep_of_idle (s := s.withPhase .idle ts) alive head rfl,
    (opStart_withPhase _ _ _ _).ok_withPhase ran]
  rfl

theorem step_chunk (more : s.idx < chunks p.len.toNat) (ran : opChunk p.toOp s = .ok t) :
    step (s.withPhase .run (.engine :: ts)) = .next (t.withPhase .run ts) := by
  have hstep : engineStep (s.withPhase .run ts) = .next (t.withPhase .run ts) := by
    rw [engineStep_of_more (s := s.withPhase .run ts) alive head rfl more,
      (opChunk_withPhase _ _ _ _).ok_withPhase ran, settle_ok]
  exact (step_of_turns_cons (t := .engine) (ts := ts) rfl).trans hstep

theorem step_finish (done : s.idx = chunks p.len.toNat) (ran : opFinish p.toOp s = .ok t) :
    step (s.withPhase .run (.engine :: ts)) =
      .next ((t.withPhase .run ts).notify p.ntf).retire.releaseScratch := by
  have hstep : engineStep (s.withPhase .run ts) = .next ((t.withPhase .run ts).notify p.ntf).retire.releaseScratch := by
    rw [engineStep_of_done (s := s.withPhase .run ts) alive head rfl done,
      (opFinish_withPhase _ _ _ _).ok_withPhase ran]
    rfl
  exact (step_of_turns_cons (t := .engine) (ts := ts) rfl).trans hstep

theorem run_chunks (k : Nat) (within : s.idx + k ≤ chunks p.len.toNat) (ran : opChunks p.toOp k s = .ok t) :
    Sys2Proof.core.run k (s.withPhase .run (List.replicate k .engine ++ ts)) = .next (t.withPhase .run ts) := by
  induction k generalizing s with
  | zero =>
    obtain rfl := Except.ok.inj ran
    rfl
  | succ k ih =>
    rw [opChunks_succ] at ran
    cases hc : opChunk p.toOp s with
    | error u =>
      rw [hc] at ran
      cases ran
    | ok u =>
      rw [hc] at ran
      obtain ⟨frame, hfatal, hidx⟩ := opChunk_ok hc
      rw [List.replicate_succ, List.cons_append, run_of_step (step_chunk alive head (by omega) hc)]
      exact ih (hfatal.trans alive) (frame.queueKept.q.trans head) (by omega) ran

theorem run_operation (phase : s.eng = .idle)
    (turns : s.turns = List.replicate (chunks p.len.toNat + 2) .engine ++ ts) (ran : ctrRun p.toOp s = .ok t) :
    Sys2Proof.core.run (chunks p.len.toNat + 2) s =
      .next ((t.withPhase .run ts).notify p.ntf).retire.releaseScratch := by
  obtain ⟨u, v, started, chunked, finished⟩ := ctrRun_parts ran
  obtain ⟨frame, hfatal, hidx⟩ := opStart_ok started
  obtain ⟨frame', hfatal', hidx'⟩ := opChunks_ok chunked
  rw [List.replicate_succ, List.replicate_succ', List.cons_append, List.append_assoc] at turns
  have halive : u.fatal = false := hfatal.trans alive
  have hhead : u.q = p :: rest := frame.queueKept.q.trans head
  calc Sys2Proof.core.run (chunks p.len.toNat + 2) s
    _ = Sys2Proof.core.run (chunks p.len.toNat + 1) _ := run_of_step (step_start alive head phase turns started) _
    _ = Sys2Proof.core.run 1 _ := run_add (run_chunks halive hhead _ (by omega) chunked)
    _ = _ := run_of_step (step_finish (hfatal'.trans halive) (frame'.queueKept.q.trans hhead) (by omega) finished) 0

end

/-- Settles O44: the state that `run_operation` names, with what `CtrRun` leaves alone. -/
theorem asyncOperationCompletes : Obligations.AsyncOperationCompletes := by
  intro s p rest ts t alive phase head turns ran
  refine ⟨_, run_operation alive head phase turns ran, ?_⟩
  obtain ⟨frame, -⟩ := ctrRun_ok ran
  obtain ⟨hq, hnlog, -⟩ := frame.queueKept
  have heng : t.eng = .idle := by rw [frame.regs, phase]
  have hrest : t.q.tail = rest := by rw [hq, head, List.tail_cons]
  rw [heng, ← hrest, ← hnlog]
  rfl

/-! ### The engine's steps through the queue -/

theorem allMapped_of_no_holes {pl : Platform} (noHoles : pl.holes = []) {a n : Nat} (inside : a + n ≤ memSize) :
    Platform.allMapped pl a n = true := by
  rw [Platform.allMapped_iff]
  intro k hk
  simp only [Platform.mapped, noHoles, List.any_nil, Bool.not_false, Bool.and_true, decide_eq_true_eq]
  omega

theorem ctrRun_isOk {p : Op} {s : State} (buffer : Platform.allMapped s.plat p.buf.toNat p.len.toNat = true)
    (counter : Platform.allMapped s.plat p.ctr.toNat 16 = true) : ∃ t, ctrRun p s = .ok t := by
  obtain ⟨u, started⟩ := opStart_isOk (p := p) (s := s) fun _ => counter
  have hu : u.plat = s.plat := by rw [(opStart_ok started).1.regs]
  obtain ⟨v, chunked⟩ := opChunks_isOk (p := p) (s := u) (chunks p.len.toNat) (hu ▸ buffer)
  have hv : v.plat = s.plat := by rw [(opChunks_ok chunked).1.regs, hu]
  obtain ⟨t, finished⟩ := opFinish_isOk (p := p) (s := v) fun _ => hv ▸ counter
  exact ⟨t, by simp only [ctrRun, started, chunked, finished, bind, Except.bind]⟩

/-- The number of engine steps that the operations of `q` take (R154). -/
def engineSteps (q : List Pending) : Nat := (q.map fun p => (p.len.toNat + 15) / 16 + 2).sum

/-- With everything mapped each operation in turn completes; the regions are what the induction needs of the queue invariant. -/
theorem run_drains {q : List Pending} {s : State} {ts : List Turn} (hq : s.q = q)
    (regions : ∀ p ∈ q, Op.regionsOk p.toOp = true) (alive : s.fatal = false) (phase : s.eng = .idle)
    (noHoles : s.plat.holes = []) (turns : s.turns = List.replicate (engineSteps q) .engine ++ ts) :
    ∃ t, Sys2Proof.core.run (engineSteps q) s = .next t ∧
      t = { s with
        turns := ts, q := [], nlog := s.nlog ++ q.map Pending.ntf, mem := t.mem, ctrw := t.ctrw, idx := t.idx,
        ksb := t.ksb, draws := t.draws } := by
  induction q generalizing s with
  | nil =>
    have hturns : s.turns = ts := turns
    refine ⟨s, rfl, ?_⟩
    rw [List.map_nil, List.append_nil, ← hturns, ← hq]
  | cons p rest ih =>
    have hsteps : engineSteps (p :: rest) = (p.len.toNat + 15) / 16 + 2 + engineSteps rest := List.sum_cons
    rw [hsteps, List.replicate_add, List.append_assoc] at turns
    obtain ⟨hbuf, hctr⟩ := regionsOk_iff.1 (regions p List.mem_cons_self)
    obtain ⟨t, ran⟩ := ctrRun_isOk (allMapped_of_no_holes noHoles hbuf) (allMapped_of_no_holes noHoles hctr)
    obtain ⟨u, done, hu⟩ := asyncOperationCompletes s p rest _ t alive phase hq turns ran
    obtain ⟨frame, hfatal, -⟩ := ctrRun_ok ran
    have hus : u = { s with
        turns := u.turns, q := rest, nlog := s.nlog ++ [p.ntf], mem := u.mem, ctrw := u.ctrw, idx := u.idx, ksb := u.ksb,
        draws := u.draws } := by
      rw [hu, frame.regs, hfatal]
      rfl
    obtain ⟨v, drained, hv⟩ := ih (s := u) (by rw [hus]) (fun r hr => regions r (List.mem_cons_of_mem p hr))
      (by rw [hus, alive]) (by rw [hus, phase]) (by rw [hus, noHoles]) (by rw [hu])
    refine ⟨v, by rw [hsteps, run_add done, drained], ?_⟩
    rw [List.map_cons, List.append_cons, hv, hus]

/-- Settles O43: `run_drains` from the queue invariant's regions. -/
theorem queueDrains : Obligations.QueueDrains := by
  intro s ts inv alive phase noHoles turns
  exact run_drains rfl inv.regions alive phase noHoles turns

end Sys2Proof.Machine
end

section
/-!
PROOFS. Rejections and the fatal fault (spec/60_exceptions.md R172, R175; spec/10_state.md R23; spec/70_reset_and_hazards.md R200): a
negative response is a rejection's, and with `FATAL` 1 the engine and the port stand still.
-/

namespace Sys2Proof.Machine

/-! ### Responses -/

/-- A command gives no response, or is rejected, or gives a response that is not negative. -/
theorem CommandStep.response_cases {w : Desc} {s t : State} (h : CommandStep w s t) :
    t.rsps = s.rsps ∨ (∃ st, t = s.respond st 0) ∨ ∃ r : Rsp, t.rsps = s.rsps ++ [r] ∧ 0 ≤ r.status.code := by
  cases h with
  | rejected st => exact .inr (.inl ⟨st, rfl⟩)
  | held | keyFault => exact .inl rfl
  | installed => exact .inr (.inr ⟨_, rfl, by decide⟩)
  | transformed _ _ _ u ran =>
    have hrsps : u.rsps = s.rsps := (ctrRun_ok ran).1.rsps_eq
    exact .inr (.inr ⟨⟨.ok, 0⟩, by rw [State.respond_rsps, State.releaseScratch_rsps, hrsps], by decide⟩)
  | transformFault _ _ _ _ ran => exact .inl (ctrRun_error ran).1.rsps_eq
  | submitted p => exact .inr (.inr ⟨⟨.submitted, p.tok⟩, rfl, show 0 ≤ Status.code .submitted by decide⟩)

/-- Settles O36: of the three ways to answer, only a rejection gives a negative response. -/
theorem rejectionChangesNothing : Obligations.RejectionChangesNothing := by
  intro w s t r ran hrsps negative
  obtain silent | ⟨st, rfl⟩ | ⟨r', hrsps', nonneg⟩ := (runCommand_next ran).response_cases
  · simp [silent] at hrsps
  · obtain rfl : ⟨st, 0⟩ = r := by simpa using hrsps
    exact ⟨rfl, rfl⟩
  · obtain rfl : r' = r := by simpa [hrsps'] using hrsps
    omega

/-! ### With `FATAL` 1 -/

theorem EngineMove.eq_of_fatal {s t : State} (h : EngineMove s t) (fatal : s.fatal = true) : t = s := by
  cases h with
  | none => rfl
  | start _ _ alive | chunk _ _ alive | finish _ _ alive | fault _ _ alive =>
    rw [fatal] at alive
    cases alive

/-- The only moves left, reset apart, are the host's loads and stores, and they need the port free. -/
theorem Move.frame_of_fatal {r t : State} {a : Turn} (h : Move r a t) (fatal : r.fatal = true) (ha : a ≠ .reset) :
    t = { r with mem := t.mem, reads := t.reads, prog := t.prog, draws := t.draws } ∧ (r.port ≠ .free → t = r) := by
  cases h with
  | reset => exact absurd rfl ha
  | engine _ move =>
    obtain rfl := move.eq_of_fatal fatal
    exact ⟨rfl, fun _ => rfl⟩
  | wait => exact ⟨rfl, fun _ => rfl⟩
  | resumed _ alive | presented _ _ alive =>
    rw [fatal] at alive
    cases alive
  | load _ _ _ port | store _ _ _ port => exact ⟨rfl, fun held => absurd port held⟩

/-- Settles O46: the frame of a move under `FATAL` 1, with the turn that the step takes. -/
theorem fatalStopsBlock : Obligations.FatalStopsBlock := by
  intro s t fatal hturn h
  obtain ⟨frame, still⟩ := (step_move h).frame_of_fatal fatal hturn
  refine ⟨?_, fun held => ?_⟩
  · rw [frame]
    rfl
  · rw [still held]
    rfl

end Sys2Proof.Machine
end

section
/-!
PROOFS. A transform that meets an unmapped byte (spec/42_ctr_engine.md R129, R130; spec/60_exceptions.md R175): it stops at the start,
where the counter region is not mapped, or else at the first chunk that has an unmapped byte.
-/

namespace Sys2Proof.Machine

open Sys2Proof.Claims

/-! ### Which bytes the chunks need -/

section
variable {p : Op} {s t : State}

theorem chunk_mapped_of_ok (ran : opChunk p s = .ok t) :
    Platform.allMapped s.plat (chunkAddr p s.idx) (chunkBytes p s.idx) = true := by
  by_contra h
  rw [opChunk_eq, if_neg h] at ran
  cases ran

theorem chunk_unmapped_of_error (ran : opChunk p s = .error t) :
    Platform.allMapped s.plat (chunkAddr p s.idx) (chunkBytes p s.idx) = false := by
  rw [← Bool.not_eq_true]
  intro h
  rw [opChunk_eq, if_pos h] at ran
  cases ran

/-- Where the chunks from `s.idx` on have run, the buffer's bytes in them are mapped. -/
theorem mapped_of_opChunks {k j : Nat} (ran : opChunks p k s = .ok t) (from_idx : 16 * s.idx ≤ j)
    (to_end : j < 16 * (s.idx + k)) (inside : j < p.len.toNat) : Platform.mapped s.plat (p.buf.toNat + j) = true := by
  induction k generalizing s with
  | zero => omega
  | succ k ih =>
    rw [opChunks_succ] at ran
    cases hc : opChunk p s with
    | error u =>
      rw [hc] at ran
      cases ran
    | ok u =>
      rw [hc] at ran
      obtain ⟨frame, -, hidx⟩ := opChunk_ok hc
      by_cases hj : j < 16 * (s.idx + 1)
      · have first := (Platform.allMapped_iff _ _ _).1 (chunk_mapped_of_ok hc) (j - 16 * s.idx)
          (by unfold chunkBytes; omega)
        rwa [chunkAddr, Nat.add_assoc, Nat.add_sub_cancel' from_idx] at first
      · have hplat : u.plat = s.plat := by rw [frame.regs]
        exact hplat ▸ ih ran (by omega) (by omega)

/-- Chunks that fail have run up to the one that fails. -/
theorem opChunks_error_split {k : Nat} (ran : opChunks p k s = .error t) :
    ∃ n u, opChunks p n s = .ok u ∧ opChunk p u = .error t := by
  induction k generalizing s with
  | zero => cases ran
  | succ k ih =>
    rw [opChunks_succ] at ran
    cases hc : opChunk p s with
    | error u =>
      rw [hc] at ran
      exact ⟨0, s, rfl, hc.trans ran⟩
    | ok u =>
      rw [hc] at ran
      obtain ⟨n, v, done, failed⟩ := ih ran
      exact ⟨n + 1, v, by rw [opChunks_succ, hc]; exact done, failed⟩

end

/-! ### Where the operation stops -/

/-- Operation `p`, begun in `s`, stops in `t` at chunk `n`, the first with an unmapped byte; the chunks before it are done and the
counter region is not written back (R130, R175). -/
structure StopsAtChunk (p : Op) (s : State) (n : Nat) (t : State) : Prop where
  hole : ∃ k, k < chunkBytes p n ∧ Platform.mapped s.plat (chunkAddr p n + k) = false
  before : ∀ k, k < 16 * n → Platform.mapped s.plat (p.buf.toNat + k) = true
  bytes : ∀ x, Memory.read t.mem x = partlyTransformedByte s p (16 * n) x

section
variable {p : Op} {s t u : State}

theorem stopsAtChunk_of_opChunks {k : Nat} (canonical : Memory.wf s.mem) (started : opStart p s = .ok u)
    (ran : opChunks p k u = .error t) : ∃ n, StopsAtChunk p s n t := by
  obtain ⟨n, v, done, failed⟩ := opChunks_error_split ran
  have h₀ := opStart_chunksDone canonical started
  have hn := h₀.add_of_opChunks done
  rw [Nat.zero_add] at hn
  have hu : u.plat = s.plat := by rw [h₀.regs]
  have hv : v.plat = s.plat := by rw [hn.regs]
  have hole := Platform.allMapped_eq_false_iff.1 (chunk_unmapped_of_error failed)
  rw [hv, hn.idx] at hole
  refine ⟨n, hole, fun k hk => ?_, fun x => ?_⟩
  · have inside : 16 * n < p.len.toNat := by
      obtain ⟨j, hj, -⟩ := hole
      unfold chunkBytes at hj
      omega
    exact hu ▸ mapped_of_opChunks done (by rw [h₀.idx]; omega) (by rw [h₀.idx]; omega) (by omega)
  · rw [opChunk_error failed]
    exact hn.bytes x

theorem ctrRun_of_unmapped_counter (data : 0 < p.len.toNat) (hole : Platform.allMapped s.plat p.ctr.toNat 16 = false) :
    ctrRun p s = .error s.raiseFatal := by
  have failed : opStart p s = .error s.raiseFatal := by
    rw [opStart_eq, if_neg data.ne', if_neg (by simp [hole])]
  simp only [ctrRun, failed, bind, Except.bind]

theorem ctrRun_of_unmapped_buffer (canonical : Memory.wf s.mem) (counter : Platform.allMapped s.plat p.ctr.toNat 16 = true)
    {j : Nat} (inside : j < p.len.toNat) (hole : Platform.mapped s.plat (p.buf.toNat + j) = false) :
    ∃ t, ctrRun p s = .error t ∧ ∃ n, StopsAtChunk p s n t := by
  obtain ⟨u, started⟩ := opStart_isOk (p := p) (s := s) fun _ => counter
  have h₀ := opStart_chunksDone canonical started
  have hu : u.plat = s.plat := by rw [h₀.regs]
  cases ran : opChunks p (chunks p.len.toNat) u with
  | error t => exact ⟨t, by simp only [ctrRun, started, ran, bind, Except.bind], stopsAtChunk_of_opChunks canonical started ran⟩
  | ok v =>
    have mapped := mapped_of_opChunks ran (by rw [h₀.idx]; omega) (by rw [h₀.idx]; unfold chunks; omega) inside
    rw [hu, hole] at mapped
    cases mapped

/-- The two places where an operation can stop, by whether its counter region is mapped. -/
theorem ctrRun_of_unmapped (canonical : Memory.wf s.mem) {x : Nat} (touched : touches p x)
    (hole : Platform.mapped s.plat x = false) :
    ∃ t, ctrRun p s = .error t ∧ (Platform.allMapped s.plat p.ctr.toNat 16 = false → t.mem = s.mem) ∧
      (Platform.allMapped s.plat p.ctr.toNat 16 = true → ∃ n, StopsAtChunk p s n t) := by
  cases counter : Platform.allMapped s.plat p.ctr.toNat 16 with
  | false =>
    have data : 0 < p.len.toNat := by
      unfold touches at touched
      omega
    exact ⟨_, ctrRun_of_unmapped_counter data counter, fun _ => rfl, nofun⟩
  | true =>
    rcases touched with hx | ⟨-, hx⟩
    · obtain ⟨j, hj, rfl⟩ := mem_range_iff_exists_offset.1 hx
      obtain ⟨t, ran, stops⟩ := ctrRun_of_unmapped_buffer canonical counter hj hole
      exact ⟨t, ran, nofun, fun _ => stops⟩
    · obtain ⟨j, hj, rfl⟩ := mem_range_iff_exists_offset.1 hx
      have mapped := (Platform.allMapped_iff _ _ _).1 counter j hj
      rw [hole] at mapped
      cases mapped

end

/-- Settles O31: the command passes its checks, and its `CtrRun` stops as ctrRun_of_unmapped says; the release of the scratch
registers leaves memory alone. -/
theorem syncTransformFatalFault : Obligations.SyncTransformFatalFault := by
  intro a0 l0 a1 s i hi canonical hkey quiet hbuf hctr ⟨x, touched, hole⟩
  rw [exec_sync hi, runSync_of_valid (validate_opOf hkey hbuf hctr) quiet]
  obtain ⟨u, ran, atStart, atChunk⟩ := ctrRun_of_unmapped (s := s.present (encode i)) canonical touched hole
  refine ⟨u.releaseScratch, by rw [ran, endSync_error], ?_, u.releaseScratch_spec.2, fun unmapped => ?_, fun mapped => ?_⟩
  · obtain ⟨frame, hfatal, -⟩ := ctrRun_error ran
    rw [frame.regs, hfatal]
    rfl
  · exact atStart (Platform.allMapped_eq_false_iff.2 unmapped)
  · obtain ⟨n, hchunk, before, bytes⟩ := atChunk ((Platform.allMapped_iff _ _ _).2 mapped)
    exact ⟨n, hchunk, before, bytes⟩

end Sys2Proof.Machine
end

section
/-!
PROOFS. The reset event (spec/70_reset_and_hazards.md R190, R191) and the host's faults (spec/20_memory.md R54, spec/70_reset_and_hazards.md
R200): the host's turn answers a next state or meets one of the three cases of `HostFault`, and the other agents' turns always
answer a next state.
-/

namespace Sys2Proof.Machine

/-- Settles O52: the step is `State.applyReset` with the turn taken; the draw of `IDX` keeps R27's bound. -/
theorem resetEvent : Obligations.ResetEvent := by
  intro s ts turns
  exact ⟨_, step_of_turns_cons turns, rfl, rfl, rfl, rfl, rfl, rfl, rfl, rfl, rfl, rfl,
    ((s.setTurns ts).releaseScratch_spec).2, fun _ => rfl⟩

/-! ### Host accesses that fault -/

theorem hostLoad_of_outside {a : Word} {n : Nat} {s : State} (outside : memSize < a.toNat + n) :
    hostLoad a n s = .fault .outsideMemory := by
  rw [hostLoad, if_pos (by simp [regionOk, outside])]

theorem hostStore_of_outside {a : Word} {bs : List Byte} {s : State} (outside : memSize < a.toNat + bs.length) :
    hostStore a bs s = .fault .outsideMemory := by
  rw [hostStore, if_pos (by simp [regionOk, outside])]

theorem hostStore_of_owned {a : Word} {bs : List Byte} {s : State} (inside : a.toNat + bs.length ≤ memSize)
    (theirs : ∃ k, k < bs.length ∧ owned s.q (a.toNat + k) = true) :
    hostStore a bs s = .fault .ownershipViolation := by
  rw [hostStore, if_neg (by simp [regionOk_iff.2 inside]), if_pos (by simpa using theirs)]

/-- The host's next action, taken with the port free, is an access that faults (R54 (a); log entries 8 and 9). -/
inductive HostFault (r : State) : Fault → Prop where
  | loadOutside (a : Word) (n : Nat) (rest : List HostAct) (port : r.port = .free) (prog : r.prog = .load a n :: rest)
      (outside : memSize < a.toNat + n) : HostFault r .outsideMemory
  | storeOutside (a : Word) (bs : List Byte) (rest : List HostAct) (port : r.port = .free)
      (prog : r.prog = .store a bs :: rest) (outside : memSize < a.toNat + bs.length) : HostFault r .outsideMemory
  | storeOwned (a : Word) (bs : List Byte) (rest : List HostAct) (port : r.port = .free)
      (prog : r.prog = .store a bs :: rest) (inside : a.toNat + bs.length ≤ memSize)
      (theirs : ∃ k, k < bs.length ∧ owned r.q (a.toNat + k) = true) : HostFault r .ownershipViolation

theorem HostFault.hostStep_eq {r : State} {f : Fault} (h : HostFault r f) : hostStep r = .fault f := by
  cases h with
  | loadOutside a n rest port prog outside =>
    exact (hostStep_load port prog).trans (hostLoad_of_outside outside)
  | storeOutside a bs rest port prog outside =>
    exact (hostStep_store port prog).trans (hostStore_of_outside outside)
  | storeOwned a bs rest port prog inside theirs =>
    exact (hostStep_store port prog).trans (hostStore_of_owned inside theirs)

/-- Everything the host's turn can answer: a waiting host, a command and a held command always answer a next state. -/
theorem hostStep_next_or_fault (r : State) : (∃ t, hostStep r = .next t) ∨ ∃ f, HostFault r f := by
  cases port : r.port with
  | held w =>
    cases fatal : r.fatal with
    | true => exact .inl ⟨r, by simp [hostStep, port, fatal]⟩
    | false =>
      obtain ⟨t, ran, -⟩ := runCommand_step w r
      exact .inl ⟨t, (hostStep_held fatal port).trans ran⟩
  | free =>
    rcases prog : r.prog with _ | ⟨act, rest⟩
    · exact .inl ⟨r, by simp [hostStep, port, prog]⟩
    cases act with
    | command w =>
      cases fatal : r.fatal with
      | true => exact .inl ⟨r, by simp [hostStep, port, prog, fatal]⟩
      | false =>
        obtain ⟨t, ran, -⟩ := runCommand_step w (r.setProg rest)
        exact .inl ⟨t, (hostStep_command fatal port prog).trans ran⟩
    | load a n =>
      by_cases inside : a.toNat + n ≤ memSize
      · exact .inl ⟨_, (hostStep_load port prog).trans (hostLoad_of_inside inside)⟩
      · exact .inr ⟨_, .loadOutside a n rest port prog (Nat.lt_of_not_le inside)⟩
    | store a bs =>
      by_cases inside : a.toNat + bs.length ≤ memSize
      · by_cases theirs : ∃ k, k < bs.length ∧ owned r.q (a.toNat + k) = true
        · exact .inr ⟨_, .storeOwned a bs rest port prog inside theirs⟩
        · have mine : ∀ k, k < bs.length → owned (r.setProg rest).q (a.toNat + k) = false := by simpa using theirs
          exact .inl ⟨_, (hostStep_store port prog).trans (hostStore_of_unowned inside mine)⟩
      · exact .inr ⟨_, .storeOutside a bs rest port prog (Nat.lt_of_not_le inside)⟩

theorem step_of_turn {s : State} {a : Turn} (h : s.turn = a) : step s = agentStep a (s.setTurns s.turns.tail) := by
  rw [← h]
  rfl

/-- Everything a step can answer: a next state, or one of the host's faults. -/
theorem step_next_or_fault (s : State) :
    (∃ t, step s = .next t) ∨ (s.turn = .host ∧ ∃ f, HostFault (s.setTurns s.turns.tail) f) := by
  cases turn : s.turn with
  | host =>
    rw [step_of_turn turn, agentStep]
    exact (hostStep_next_or_fault _).imp_right fun fault => ⟨rfl, fault⟩
  | engine =>
    obtain ⟨t, ran, -⟩ := engineStep_move (s.setTurns s.turns.tail)
    exact .inl ⟨t, (step_of_turn turn).trans ran⟩
  | reset => exact .inl ⟨_, step_of_turn turn⟩

theorem HostFault.step_eq {s : State} {f : Fault} (turn : s.turn = .host) (h : HostFault (s.setTurns s.turns.tail) f) :
    step s = .fault f :=
  (step_of_turn turn).trans h.hostStep_eq

theorem step_ne_refused (s : State) (r : Refusal) : step s ≠ .refused r := by
  obtain ⟨t, ran⟩ | ⟨turn, f, fault⟩ := step_next_or_fault s
  · simp [ran]
  · simp [fault.step_eq turn]

theorem step_eq_fault_iff {s : State} {f : Fault} :
    step s = .fault f ↔ s.turn = .host ∧ HostFault (s.setTurns s.turns.tail) f := by
  refine ⟨fun h => ?_, fun ⟨turn, fault⟩ => fault.step_eq turn⟩
  obtain ⟨t, ran⟩ | ⟨turn, g, fault⟩ := step_next_or_fault s
  · cases ran.symm.trans h
  · cases (fault.step_eq turn).symm.trans h
    exact ⟨turn, fault⟩

/-- Settles O50: a step faults exactly with one of the host's faults, and those are the three clauses. -/
theorem onlyHostAccessesFault : Obligations.OnlyHostAccessesFault := by
  intro s
  refine ⟨step_ne_refused s, fun f => step_eq_fault_iff.trans (and_congr_right fun _ => ⟨fun fault => ?_, ?_⟩)⟩
  · cases fault with
    | loadOutside a n rest port prog outside => exact ⟨port, .inl ⟨a, n, rest, prog, outside, rfl⟩⟩
    | storeOutside a bs rest port prog outside => exact ⟨port, .inr (.inl ⟨a, bs, rest, prog, outside, rfl⟩)⟩
    | storeOwned a bs rest port prog inside theirs =>
      exact ⟨port, .inr (.inr ⟨a, bs, rest, prog, inside, theirs, rfl⟩)⟩
  · rintro ⟨port, ⟨a, n, rest, prog, outside, rfl⟩ | ⟨a, bs, rest, prog, outside, rfl⟩ |
      ⟨a, bs, rest, prog, inside, theirs, rfl⟩⟩
    · exact .loadOutside a n rest port prog outside
    · exact .storeOutside a bs rest port prog outside
    · exact .storeOwned a bs rest port prog inside theirs

end Sys2Proof.Machine
end
